-- ==== Sys2Proof/Word.lean ====
section
/-! DEFINITION. The word types of the core (spec/10_state.md R21, R25, R26; spec/00_scope.md R9 to R12).
Every value is an unsigned integer of a stated width (R10). -/

namespace Sys2Proof

/-- A Memory cell, a general register, a timer, or the immediate kk (R21, R30, R51, R73). -/
abbrev Byte := BitVec 8

/-- A 16-bit value: the opcode, I, PC, or a saved return address (R25, R26, R28, R35). -/
abbrev Word := BitVec 16

/-- The immediate nnn, 0 to 4095 (R73). -/
abbrev Addr12 := BitVec 12

/-- The 4-bit index of a general register, an x or y field (R21, R71). -/
abbrev Reg := Fin 16

end Sys2Proof
end

