-- ==== Sys2Proof/Syntax.lean ====
section
/-! DEFINITION. The instruction set: one constructor per row of spec/opcode_table.json
(spec/30_encoding.md R81, R83). Bits the decoder ignores (R72) are not operands. -/

namespace Sys2Proof

/-- The 34 instructions of R81 in its order, and the NOP fallback of R78. -/
inductive Instr where
  /-- `CLS` (R142). -/
  | cls
  /-- `RET` (R110). -/
  | ret
  /-- `JP addr` (R111). -/
  | jp (nnn : Addr12)
  /-- `CALL addr` (R112). -/
  | call (nnn : Addr12)
  /-- `SE Vx,byte` (R113). -/
  | seByte (x : Reg) (kk : Byte)
  /-- `SNE Vx,byte` (R114). -/
  | sneByte (x : Reg) (kk : Byte)
  /-- `SE Vx,Vy` (R115). -/
  | seReg (x y : Reg)
  /-- `LD Vx,byte` (R120). -/
  | ldByte (x : Reg) (kk : Byte)
  /-- `ADD Vx,byte` (R121). -/
  | addByte (x : Reg) (kk : Byte)
  /-- `LD Vx,Vy` (R122). -/
  | ldReg (x y : Reg)
  /-- `OR Vx,Vy` (R123). -/
  | orReg (x y : Reg)
  /-- `AND Vx,Vy` (R124). -/
  | andReg (x y : Reg)
  /-- `XOR Vx,Vy` (R125). -/
  | xorReg (x y : Reg)
  /-- `ADD Vx,Vy` (R127). -/
  | addReg (x y : Reg)
  /-- `SUB Vx,Vy` (R128). -/
  | subReg (x y : Reg)
  /-- `SHR Vx` (R130); y is decoded and unused. -/
  | shr (x y : Reg)
  /-- `SUBN Vx,Vy` (R129). -/
  | subnReg (x y : Reg)
  /-- `SHL Vx` (R131); y is decoded and unused. -/
  | shl (x y : Reg)
  /-- `SNE Vx,Vy` (R116). -/
  | sneReg (x y : Reg)
  /-- `LD I,addr` (R132). -/
  | ldI (nnn : Addr12)
  /-- `JP V0,addr` (R118). -/
  | jpV0 (nnn : Addr12)
  /-- `RND Vx,byte` (R134). -/
  | rnd (x : Reg) (kk : Byte)
  /-- `DRW Vx,Vy,n` (R143). -/
  | drw (x y : Reg) (n : Fin 16)
  /-- `SKP Vx` (R150). -/
  | skp (x : Reg)
  /-- `SKNP Vx` (R151). -/
  | sknp (x : Reg)
  /-- `LD Vx,DT` (R153). -/
  | ldVxDt (x : Reg)
  /-- `LD Vx,K` (R152). -/
  | ldVxK (x : Reg)
  /-- `LD DT,Vx` (R154). -/
  | ldDtVx (x : Reg)
  /-- `LD ST,Vx` (R155). -/
  | ldStVx (x : Reg)
  /-- `ADD I,Vx` (R133). -/
  | addIVx (x : Reg)
  /-- `LD F,Vx` (R146). -/
  | ldFVx (x : Reg)
  /-- `LD B,Vx` (R160). -/
  | ldBVx (x : Reg)
  /-- `LD [I],Vx` (R162). -/
  | storeRegs (x : Reg)
  /-- `LD Vx,[I]` (R163). -/
  | loadRegs (x : Reg)
  /-- `NOP 0xhhhh`: any word that selects no row above (R78, R85, R96). It has no canonical word, so it keeps its own. -/
  | nop (word : Word)
  deriving DecidableEq, Repr

end Sys2Proof
end

