-- ==== Sys2Proof/WellFormed.lean ====
section
/-! DEFINITION. Which terms of `Instr` stand for a word. Every operand is bounded by its type; the one check left is
that a NOP holds a word the opcode map leaves unmapped (spec/30_encoding.md R78). -/

namespace Sys2Proof

/-- The unmapped words, written from R78's four lists of selectors: family 0, 8 and E by the lowest nibble,
family F by the lowest byte. No word of another family is unmapped (R74). -/
abbrev Unmapped (w : Word) : Prop :=
  (w.toNat / 4096 = 0x0 ∧ w.toNat % 16 ∉ [0x0, 0xE]) ∨
  (w.toNat / 4096 = 0x8 ∧ w.toNat % 16 ∈ [0x8, 0x9, 0xA, 0xB, 0xC, 0xD, 0xF]) ∨
  (w.toNat / 4096 = 0xE ∧ w.toNat % 16 ∉ [0x1, 0xE]) ∨
  (w.toNat / 4096 = 0xF ∧ w.toNat % 256 ∉ [0x07, 0x0A, 0x15, 0x18, 0x1E, 0x29, 0x33, 0x55, 0x65])

/-- A term that is some word's instruction: a NOP holds an unmapped word, every other term is one. -/
def Instr.wellFormed : Instr → Bool
  | .nop word => decide (Unmapped word)
  | _ => true

end Sys2Proof
end

