-- ==== Sys2Proof/Decode.lean ====
section
/-! DEFINITION. Decode and encode (spec/30_encoding.md): the fields of R71, the decoder of R83, the opcode map of R81
as data, and an encoder written from the same formats (R72). -/

namespace Sys2Proof

/-! ### Fields (R9, R71) -/

/-- `op[hi:lo]`, the unsigned value of bits hi down to lo (R9). -/
def bits (op : Word) (hi lo : Nat) : Nat := op.toNat / 2 ^ lo % 2 ^ (hi + 1 - lo)

/-- x = op[11:8] (R71). -/
def fieldX (op : Word) : Reg := Fin.ofNat 16 (bits op 11 8)

/-- y = op[7:4] (R71). -/
def fieldY (op : Word) : Reg := Fin.ofNat 16 (bits op 7 4)

/-- n = op[3:0] (R71). -/
def fieldN (op : Word) : Fin 16 := Fin.ofNat 16 (bits op 3 0)

/-- kk = op[7:0] (R71). -/
def fieldKK (op : Word) : Byte := BitVec.ofNat 8 (bits op 7 0)

/-- nnn = op[11:0] (R71). -/
def fieldNNN (op : Word) : Addr12 := BitVec.ofNat 12 (bits op 11 0)

/-! ### Decode (R74 to R78, R83) -/

/-- Family 0 dispatches on the lowest nibble; bits 11-4 are ignored (R75). -/
def decodeFamily0 (op : Word) : Instr :=
  match bits op 3 0 with
  | 0x0 => .cls
  | 0xE => .ret
  | _ => .nop op

/-- Family 8 dispatches on the lowest nibble (R75). -/
def decodeFamily8 (op : Word) : Instr :=
  match bits op 3 0 with
  | 0x0 => .ldReg (fieldX op) (fieldY op)
  | 0x1 => .orReg (fieldX op) (fieldY op)
  | 0x2 => .andReg (fieldX op) (fieldY op)
  | 0x3 => .xorReg (fieldX op) (fieldY op)
  | 0x4 => .addReg (fieldX op) (fieldY op)
  | 0x5 => .subReg (fieldX op) (fieldY op)
  | 0x6 => .shr (fieldX op) (fieldY op)
  | 0x7 => .subnReg (fieldX op) (fieldY op)
  | 0xE => .shl (fieldX op) (fieldY op)
  | _ => .nop op

/-- Family E dispatches on the lowest nibble; bits 7-4 are ignored (R75). -/
def decodeFamilyE (op : Word) : Instr :=
  match bits op 3 0 with
  | 0xE => .skp (fieldX op)
  | 0x1 => .sknp (fieldX op)
  | _ => .nop op

/-- Family F dispatches on the whole lowest byte (R76). -/
def decodeFamilyF (op : Word) : Instr :=
  match bits op 7 0 with
  | 0x07 => .ldVxDt (fieldX op)
  | 0x0A => .ldVxK (fieldX op)
  | 0x15 => .ldDtVx (fieldX op)
  | 0x18 => .ldStVx (fieldX op)
  | 0x1E => .addIVx (fieldX op)
  | 0x29 => .ldFVx (fieldX op)
  | 0x33 => .ldBVx (fieldX op)
  | 0x55 => .storeRegs (fieldX op)
  | 0x65 => .loadRegs (fieldX op)
  | _ => .nop op

/-- The decoder of R83, total on all 65536 words (R79): primary dispatch on op[15:12] (R74). A pure function of the
word. The last arm is family F, the only value of the nibble left. -/
def decodeWord (op : Word) : Instr :=
  match bits op 15 12 with
  | 0x0 => decodeFamily0 op
  | 0x1 => .jp (fieldNNN op)
  | 0x2 => .call (fieldNNN op)
  | 0x3 => .seByte (fieldX op) (fieldKK op)
  | 0x4 => .sneByte (fieldX op) (fieldKK op)
  | 0x5 => .seReg (fieldX op) (fieldY op)
  | 0x6 => .ldByte (fieldX op) (fieldKK op)
  | 0x7 => .addByte (fieldX op) (fieldKK op)
  | 0x8 => decodeFamily8 op
  | 0x9 => .sneReg (fieldX op) (fieldY op)
  | 0xA => .ldI (fieldNNN op)
  | 0xB => .jpV0 (fieldNNN op)
  | 0xC => .rnd (fieldX op) (fieldKK op)
  | 0xD => .drw (fieldX op) (fieldY op) (fieldN op)
  | 0xE => decodeFamilyE op
  | _ => decodeFamilyF op

/-- The 16-bit opcode of two consecutive bytes, most significant byte at the lower address (R54, R70). -/
def wordOfBytes (hi lo : Byte) : Word := BitVec.ofNat 16 (hi.toNat * 256 + lo.toNat)

/-- Why a byte string holds no instruction. -/
inductive DecodeError where
  /-- Fewer than the two bytes every instruction has (R70). -/
  | truncated
  deriving DecidableEq, Repr

/-- The first instruction of a byte string and the bytes after it (R70). The only rejection is `truncated`. -/
def decode : List Byte → Except DecodeError (Instr × List Byte)
  | hi :: lo :: rest => .ok (decodeWord (wordOfBytes hi lo), rest)
  | _ => .error .truncated

/-! ### The opcode map as data (R81) -/

/-- One row of R81: a word w selects it when `(w and mask) == pat`. -/
structure OpcodeRow where
  mnemonic : String
  mask : Word
  pat : Word
  build : Word → Instr

/-- "a word w selects the row when `(w and mask) == match`" (R81). -/
def OpcodeRow.selects (r : OpcodeRow) (w : Word) : Bool := w &&& r.mask == r.pat

/-- Rows 1 to 18 of R81. -/
def opcodeRowsLow : List OpcodeRow :=
  [ ⟨"CLS", 0xF00F, 0x0000, fun _ => .cls⟩,
    ⟨"RET", 0xF00F, 0x000E, fun _ => .ret⟩,
    ⟨"JP_addr", 0xF000, 0x1000, fun w => .jp (fieldNNN w)⟩,
    ⟨"CALL_addr", 0xF000, 0x2000, fun w => .call (fieldNNN w)⟩,
    ⟨"SE_Vx_byte", 0xF000, 0x3000, fun w => .seByte (fieldX w) (fieldKK w)⟩,
    ⟨"SNE_Vx_byte", 0xF000, 0x4000, fun w => .sneByte (fieldX w) (fieldKK w)⟩,
    ⟨"SE_Vx_Vy", 0xF000, 0x5000, fun w => .seReg (fieldX w) (fieldY w)⟩,
    ⟨"LD_Vx_byte", 0xF000, 0x6000, fun w => .ldByte (fieldX w) (fieldKK w)⟩,
    ⟨"ADD_Vx_byte", 0xF000, 0x7000, fun w => .addByte (fieldX w) (fieldKK w)⟩,
    ⟨"LD_Vx_Vy", 0xF00F, 0x8000, fun w => .ldReg (fieldX w) (fieldY w)⟩,
    ⟨"OR_Vx_Vy", 0xF00F, 0x8001, fun w => .orReg (fieldX w) (fieldY w)⟩,
    ⟨"AND_Vx_Vy", 0xF00F, 0x8002, fun w => .andReg (fieldX w) (fieldY w)⟩,
    ⟨"XOR_Vx_Vy", 0xF00F, 0x8003, fun w => .xorReg (fieldX w) (fieldY w)⟩,
    ⟨"ADD_Vx_Vy", 0xF00F, 0x8004, fun w => .addReg (fieldX w) (fieldY w)⟩,
    ⟨"SUB_Vx_Vy", 0xF00F, 0x8005, fun w => .subReg (fieldX w) (fieldY w)⟩,
    ⟨"SHR_Vx", 0xF00F, 0x8006, fun w => .shr (fieldX w) (fieldY w)⟩,
    ⟨"SUBN_Vx_Vy", 0xF00F, 0x8007, fun w => .subnReg (fieldX w) (fieldY w)⟩,
    ⟨"SHL_Vx", 0xF00F, 0x800E, fun w => .shl (fieldX w) (fieldY w)⟩ ]

/-- Rows 19 to 34 of R81. -/
def opcodeRowsHigh : List OpcodeRow :=
  [ ⟨"SNE_Vx_Vy", 0xF000, 0x9000, fun w => .sneReg (fieldX w) (fieldY w)⟩,
    ⟨"LD_I_addr", 0xF000, 0xA000, fun w => .ldI (fieldNNN w)⟩,
    ⟨"JP_V0_addr", 0xF000, 0xB000, fun w => .jpV0 (fieldNNN w)⟩,
    ⟨"RND_Vx_byte", 0xF000, 0xC000, fun w => .rnd (fieldX w) (fieldKK w)⟩,
    ⟨"DRW_Vx_Vy_n", 0xF000, 0xD000, fun w => .drw (fieldX w) (fieldY w) (fieldN w)⟩,
    ⟨"SKP_Vx", 0xF00F, 0xE00E, fun w => .skp (fieldX w)⟩,
    ⟨"SKNP_Vx", 0xF00F, 0xE001, fun w => .sknp (fieldX w)⟩,
    ⟨"LD_Vx_DT", 0xF0FF, 0xF007, fun w => .ldVxDt (fieldX w)⟩,
    ⟨"LD_Vx_K", 0xF0FF, 0xF00A, fun w => .ldVxK (fieldX w)⟩,
    ⟨"LD_DT_Vx", 0xF0FF, 0xF015, fun w => .ldDtVx (fieldX w)⟩,
    ⟨"LD_ST_Vx", 0xF0FF, 0xF018, fun w => .ldStVx (fieldX w)⟩,
    ⟨"ADD_I_Vx", 0xF0FF, 0xF01E, fun w => .addIVx (fieldX w)⟩,
    ⟨"LD_F_Vx", 0xF0FF, 0xF029, fun w => .ldFVx (fieldX w)⟩,
    ⟨"LD_B_Vx", 0xF0FF, 0xF033, fun w => .ldBVx (fieldX w)⟩,
    ⟨"LD__I__Vx", 0xF0FF, 0xF055, fun w => .storeRegs (fieldX w)⟩,
    ⟨"LD_Vx__I", 0xF0FF, 0xF065, fun w => .loadRegs (fieldX w)⟩ ]

/-- The opcode map of R81, in its order. -/
def opcodeRows : List OpcodeRow := opcodeRowsLow ++ opcodeRowsHigh

/-- What R81 says a word stands for: the row it selects, or NOP if it selects none. -/
def lookupRows (rows : List OpcodeRow) (w : Word) : Instr :=
  match rows with
  | [] => .nop w
  | r :: rest => if r.selects w then r.build w else lookupRows rest w

/-! ### Encode (R72, R81) -/

/-- Format A: family, nnn (R72). -/
def encodeA (family : Nat) (nnn : Addr12) : Word := BitVec.ofNat 16 (family * 4096 + nnn.toNat)

/-- Formats XK, XS and XB: family, x, low byte (R72). -/
def encodeXK (family : Nat) (x : Reg) (kk : Byte) : Word :=
  BitVec.ofNat 16 (family * 4096 + x.val * 256 + kk.toNat)

/-- Formats XY and XYN: family, x, y, low nibble (R72). -/
def encodeXY (family : Nat) (x y : Reg) (n : Fin 16) : Word :=
  BitVec.ofNat 16 (family * 4096 + x.val * 256 + y.val * 16 + n.val)

/-- The word of an instruction, in the canonical spelling of R81 (ignored bits as usually written). A NOP has no
canonical word and gives back the one it holds (R85). -/
def encode : Instr → Word
  | .cls => 0x00E0
  | .ret => 0x00EE
  | .jp nnn => encodeA 0x1 nnn
  | .call nnn => encodeA 0x2 nnn
  | .seByte x kk => encodeXK 0x3 x kk
  | .sneByte x kk => encodeXK 0x4 x kk
  | .seReg x y => encodeXY 0x5 x y 0x0
  | .ldByte x kk => encodeXK 0x6 x kk
  | .addByte x kk => encodeXK 0x7 x kk
  | .ldReg x y => encodeXY 0x8 x y 0x0
  | .orReg x y => encodeXY 0x8 x y 0x1
  | .andReg x y => encodeXY 0x8 x y 0x2
  | .xorReg x y => encodeXY 0x8 x y 0x3
  | .addReg x y => encodeXY 0x8 x y 0x4
  | .subReg x y => encodeXY 0x8 x y 0x5
  | .shr x y => encodeXY 0x8 x y 0x6
  | .subnReg x y => encodeXY 0x8 x y 0x7
  | .shl x y => encodeXY 0x8 x y 0xE
  | .sneReg x y => encodeXY 0x9 x y 0x0
  | .ldI nnn => encodeA 0xA nnn
  | .jpV0 nnn => encodeA 0xB nnn
  | .rnd x kk => encodeXK 0xC x kk
  | .drw x y n => encodeXY 0xD x y n
  | .skp x => encodeXK 0xE x 0x9E
  | .sknp x => encodeXK 0xE x 0xA1
  | .ldVxDt x => encodeXK 0xF x 0x07
  | .ldVxK x => encodeXK 0xF x 0x0A
  | .ldDtVx x => encodeXK 0xF x 0x15
  | .ldStVx x => encodeXK 0xF x 0x18
  | .addIVx x => encodeXK 0xF x 0x1E
  | .ldFVx x => encodeXK 0xF x 0x29
  | .ldBVx x => encodeXK 0xF x 0x33
  | .storeRegs x => encodeXK 0xF x 0x55
  | .loadRegs x => encodeXK 0xF x 0x65
  | .nop word => word

/-- The high byte of a word, the one at the lower address (R54). -/
def highByte (w : Word) : Byte := BitVec.ofNat 8 (bits w 15 8)

/-- The low byte of a word (R54). -/
def lowByte (w : Word) : Byte := BitVec.ofNat 8 (bits w 7 0)

/-- A word as it lies in Memory, most significant byte first (R70). -/
def wordBytes (w : Word) : List Byte := [highByte w, lowByte w]

/-- The bytes of an instruction as they lie in Memory. -/
def encodeBytes (i : Instr) : List Byte := wordBytes (encode i)

/-! ### The opcode table's numbering of bits -/

/-- The instruction word that the table's bits stand for: the low nbits of w, the bits above them 0. An instruction is
one 16-bit word (R70), so the table's bit k is the word's bit k. -/
def tableWord (nbits w : Nat) : Word := BitVec.ofNat 16 (w % 2 ^ nbits)

/-- What the decoder reads from an instruction whose bits are w, numbered as spec/opcode_table.json numbers them. -/
def decodeTableWord (nbits w : Nat) : Option Instr :=
  match decode (wordBytes (tableWord nbits w)) with
  | .ok (i, _) => some i
  | .error _ => none

end Sys2Proof
end

