-- ==== Sys2Proof/Config.lean ====
section
/-! DEFINITION. What is fixed for one machine and not by its program: the parameters of spec/00_scope.md R6 and R7,
and the free values of spec/10_state.md R33. -/

namespace Sys2Proof

/-- Number of Memory cells (R6, R51). -/
abbrev Config.memSize : Nat := 4096

/-- Where an image is loaded and the first instruction fetched (R6, R65). -/
abbrev Config.bootAddr : Nat := 0x200

/-- Longest image LoadImage accepts (R6, R65). -/
abbrev Config.maxImage : Nat := 3584

/-- The two parameters the spec leaves open (R7): where the font lies and its bytes. Every state carries its machine's
(log entry 26); the defaults are in Sys2Proof/Machine/Font.lean. -/
structure FontParams where
  base : Nat
  data : List Byte
  deriving DecidableEq, Repr

/-- The constraint the source puts on them: 16 glyphs of 5 bytes, wholly below the boot address (R6, R7). -/
abbrev FontParams.fits (p : FontParams) : Prop := p.data.length = 80 ∧ p.base + 80 ≤ Config.bootAddr

/-- FREE VALUE (log entry 4): the byte the random source gives at draw number `draw`. It has no body, so nothing is
known of it: no distribution, no independence, no repeatability (R33, R134, D15). -/
opaque Config.randomByte (draw : Nat) : Byte

end Sys2Proof
end

