-- ==== Sys2Proof/Machine/Font.lean ====
section
/-! DEFINITION. The font (spec/43_display.md R146, R147; spec/20_memory.md R52, R68): the defaults of
the two parameters of spec/00_scope.md R7, and what a Memory cell holds right after reset. -/

namespace Sys2Proof.Machine

/-- The glyphs of digits 0 to 7 (the default table of R147; log entry 2, PRESUMED). -/
def glyphsLow : List Byte :=
  [ 0xF0, 0x90, 0x90, 0x90, 0xF0,   0x20, 0x60, 0x20, 0x20, 0x70,
    0xF0, 0x10, 0xF0, 0x80, 0xF0,   0xF0, 0x10, 0xF0, 0x10, 0xF0,
    0x90, 0x90, 0xF0, 0x10, 0x10,   0xF0, 0x80, 0xF0, 0x10, 0xF0,
    0xF0, 0x80, 0xF0, 0x90, 0xF0,   0xF0, 0x10, 0x20, 0x40, 0x40 ]

/-- The glyphs of digits 8 to F (the default table of R147; log entry 2, PRESUMED). -/
def glyphsHigh : List Byte :=
  [ 0xF0, 0x90, 0xF0, 0x90, 0xF0,   0xF0, 0x90, 0xF0, 0x10, 0xF0,
    0xF0, 0x90, 0xF0, 0x90, 0x90,   0xE0, 0x90, 0xE0, 0x90, 0xE0,
    0xF0, 0x80, 0x80, 0x80, 0xF0,   0xE0, 0x90, 0x90, 0x90, 0xE0,
    0xF0, 0x80, 0xF0, 0x80, 0xF0,   0xF0, 0x80, 0xF0, 0x80, 0x80 ]

/-- The defaults of R7 for FONT_BASE and FONT_DATA (log entries 1 and 2, PRESUMED). -/
def defaultFont : FontParams := { base := 0x050, data := glyphsLow ++ glyphsHigh }

/-- What a Memory cell that nothing has written reads as, its value after reset: the font's bytes at FONT_BASE, 0x00
elsewhere (R51, R52, R191). -/
def resetByte (p : FontParams) (a : Nat) : Byte :=
  if p.base ≤ a then p.data.getD (a - p.base) 0x00 else 0x00

/-- The address `LD F,Vx` computes, on the whole byte, not masked to a digit (R146, D10; log entry 14). -/
def glyphAddress (p : FontParams) (digit : Byte) : Word := BitVec.ofNat 16 (p.base + 5 * digit.toNat)

end Sys2Proof.Machine
end

