-- ==== Sys2Proof/Machine/Memory.lean ====
section
/-! DEFINITION. Memory (spec/20_memory.md R51, R52): 4096 byte cells, held as the sorted list of the cells that differ
from their value after reset (log entry 16). -/

namespace Sys2Proof.Machine

/-- The written cells, addresses strictly rising, none equal to what an unlisted cell reads as. -/
abbrev Memory := List Host.Cell

/-- The canonical form: addresses strictly rising, every address one that exists (R57), no cell at its reset value. -/
abbrev Memory.wf (p : FontParams) (m : Memory) : Prop :=
  m.Pairwise (fun c d => c.1 < d.1) ∧ ∀ c ∈ m, c.1 < Config.memSize ∧ c.2 ≠ resetByte p c.1

/-- The byte at an address: the last value written there, or the value after reset (R59). -/
def Memory.read (p : FontParams) (m : Memory) (a : Nat) : Byte :=
  match m with
  | [] => resetByte p a
  | (b, v) :: rest => if a = b then v else Memory.read p rest a

/-- Put a cell before cells of higher addresses, unless it holds its reset value. -/
def Memory.cons (p : FontParams) (a : Nat) (v : Byte) (rest : Memory) : Memory :=
  if v = resetByte p a then rest else (a, v) :: rest

/-- Write one cell and no other (R59). -/
def Memory.write (p : FontParams) (m : Memory) (a : Nat) (v : Byte) : Memory :=
  match m with
  | [] => Memory.cons p a v []
  | (b, w) :: rest =>
    if a < b then Memory.cons p a v ((b, w) :: rest)
    else if a = b then Memory.cons p a v rest
    else (b, w) :: Memory.write p rest a v

/-- Write bytes at consecutive ascending addresses (R55). -/
def Memory.writeBytes (p : FontParams) (m : Memory) (a : Nat) : List Byte → Memory
  | [] => m
  | v :: vs => Memory.writeBytes p (Memory.write p m a v) (a + 1) vs

/-- Whether len bytes from base lie at addresses that exist: the check of R57, over the integers (base is not wrapped)
and on the whole range. No byte is accessed when len = 0 (R143 (c)). -/
def rangeExists (base len : Nat) : Bool := len == 0 || base + len - 1 ≤ 4095

end Sys2Proof.Machine
end

