-- ==== Sys2Proof/Machine/State.lean ====
section
/-! DEFINITION. The state of the core (spec/10_state.md R20, "the complete state of the core is the following, and
nothing else"), its fault causes (spec/60_exceptions.md R170) and its reset value (R39, R190, R191). -/

namespace Sys2Proof.Machine

/-- The six fault causes of R170. A cause is first LATCHED in `State.fault` by the operation that raises it, which answers
a next state (R176, R182); the step of a core whose latch is set answers `Outcome.fault` with that cause, the terminal
outcome of R178 (log entry 5). Every one of them is safe: the model stops where the spec halts the core. -/
inductive Fault where
  /-- Latched by CALL when SP = 16 (R171). Safe. -/
  | stackOverflow
  /-- Latched by RET when SP = 0 (R172). Safe. -/
  | stackUnderflow
  /-- Latched by the host operation LoadImage when the image has more than 3584 bytes (R173). Safe. -/
  | imageTooLarge
  /-- Latched by the fetch of any cycle when PC > 4094 (R174). Safe. -/
  | fetchOutOfRange
  /-- Latched by DRW, LD B, LD [I],Vx and LD Vx,[I] when the last byte's address is above 4095 (R175). Safe. -/
  | memOutOfRange
  /-- Latched by SKP and SKNP when V[x] > 15 (R177). Safe. -/
  | keyIndexOutOfRange
  deriving DecidableEq, Repr

/-- Why a step could be refused. No meaning of this model refuses. -/
inductive Refusal where
  /-- Raised by an arm of `exec` whose instruction has no meaning yet; no arm is left. Safe. -/
  | notModelled (mnemonic : String)
  deriving DecidableEq, Repr

/-- The Display Buffer: 32 rows of 64 one-bit cells, `fb[y][x]`, true for on (R32, R140). -/
abbrev Framebuffer := Vector (Vector Bool 64) 32

/-- All cells off. -/
def Framebuffer.clear : Framebuffer := Vector.replicate 32 (Vector.replicate 64 false)

/-- The state of R20. The current opcode is a local of the step, not a field (R35). -/
structure State where
  /-- V0 to VF (R21). -/
  v : Vector Byte 16
  /-- I (R25). -/
  i : Word
  /-- PC (R26). -/
  pc : Word
  /-- The call stack's 16 slots (R28). -/
  stk : Vector Word 16
  /-- SP, the next free slot, 0 to 16 (R29). -/
  sp : Fin 17
  /-- The delay timer (R30). -/
  dt : Byte
  /-- The sound timer (R31). -/
  st : Byte
  /-- Memory (R51). -/
  mem : Memory
  /-- The Display Buffer (R32). -/
  fb : Framebuffer
  /-- The Keypad State, true for pressed; the host writes it between cycles, the core never (R34). -/
  key : Vector Bool 16
  /-- The fault latch (R36). -/
  fault : Option Fault
  /-- The model's own field: how many random bytes have been drawn, which selects the next free byte (R33, log entry 4). -/
  draws : Nat
  /-- FONT_BASE and FONT_DATA of this machine: R7's parameters, which no step and no host operation changes (log entry
  26). -/
  font : FontParams
  deriving DecidableEq, Repr

/-- The state right after reset of the machine with given font parameters (R7, R39, R190): nothing is listed in Memory, so
every cell reads as R191 says. -/
def State.resetWith (p : FontParams) : State where
  v := Vector.replicate 16 0
  i := 0
  pc := 0x200
  stk := Vector.replicate 16 0
  sp := 0
  dt := 0
  st := 0
  mem := []
  fb := Framebuffer.clear
  key := Vector.replicate 16 false
  fault := none
  draws := 0
  font := p

/-- The state right after reset, with the parameters at R7's defaults. -/
def State.reset : State := State.resetWith defaultFont

end Sys2Proof.Machine
end

