-- ==== Sys2Proof/Machine/Ops.lean ====
section
/-! DEFINITION. The named operations over the state: reading and writing each store (spec/00_scope.md R11), raising a
fault (spec/60_exceptions.md R176), and the phases of a cycle around the handler (spec/40_cycle_and_dispatch.md R91). -/

namespace Sys2Proof.Machine

/-- What a meaning answers. -/
abbrev Result := Host.Outcome State Fault Refusal

/-! ### General registers (R21, R22) -/

/-- VF, register 0xF (R22). -/
abbrev VF : Reg := 15

/-- V[r]. -/
def State.reg (s : State) (r : Reg) : Byte := s.v[r]

/-- V[r] <- b. -/
def State.setReg (s : State) (r : Reg) (b : Byte) : State := { s with v := s.v.set r.val b r.isLt }

/-! ### I, PC and the timers (R25, R26, R30, R31) -/

/-- I <- w. -/
def State.setI (s : State) (w : Word) : State := { s with i := w }

/-- PC <- w. -/
def State.setPc (s : State) (w : Word) : State := { s with pc := w }

/-- DT <- b. -/
def State.setDt (s : State) (b : Byte) : State := { s with dt := b }

/-- ST <- b. -/
def State.setSt (s : State) (b : Byte) : State := { s with st := b }

/-- PC moves over the next two bytes if the condition holds (R113). -/
def State.skipIf (s : State) (taken : Bool) : State := if taken then s.setPc (s.pc + 2) else s

/-- PC <- (PC − 2) mod 65536, back to the instruction itself (R152). -/
def State.rewind (s : State) : State := s.setPc (s.pc - 2)

/-! ### Memory (R11, R51, R59) -/

/-- MemRead(a, 1) at an address that exists. -/
def State.byteAt (s : State) (a : Nat) : Byte := Memory.read s.font s.mem a

/-- MemWrite(a, 1, b) at an address that exists. -/
def State.setByte (s : State) (a : Nat) (b : Byte) : State := { s with mem := Memory.write s.font s.mem a b }

/-- MemWrite at consecutive ascending addresses from a. -/
def State.setBytes (s : State) (a : Nat) (bs : List Byte) : State := { s with mem := Memory.writeBytes s.font s.mem a bs }

/-! ### The display and the keypad (R32, R34) -/

/-- FB[py][px]. -/
def State.cell (s : State) (py : Fin 32) (px : Fin 64) : Bool := s.fb[py][px]

/-- The whole Display Buffer replaced. -/
def State.setFb (s : State) (fb : Framebuffer) : State := { s with fb := fb }

/-- KEY[k]. -/
def State.keyDown (s : State) (k : Fin 16) : Bool := s.key[k]

/-- The pressed key of lowest code, if any key is pressed (R152: "ascending key code", "first pressed key wins"). -/
def State.firstKey (s : State) : Option (Fin 16) := (List.finRange 16).find? (fun k => s.keyDown k)

/-! ### The random source (R33) -/

/-- Rand(): the byte the next draw gives, a free value (log entry 4). -/
def State.randomByte (s : State) : Byte := Config.randomByte s.draws

/-- One random byte is consumed (R134). -/
def State.countDraw (s : State) : State := { s with draws := s.draws + 1 }

/-! ### Raising a fault (R176, R182) -/

/-- `raise F`: FAULT <- F, and nothing else changes (R176). There is no saved PC, no vector and no mode, and no return but
reset (R181). -/
def State.raise (s : State) (f : Fault) : State := { s with fault := some f }

/-! ### The call stack (R28, R29) -/

/-- STK[SP] <- w; SP <- SP + 1, or StackOverflow when SP = 16 (R112). -/
def State.push (s : State) (w : Word) : Option State :=
  if h : s.sp.val < 16 then
    some { s with stk := s.stk.set s.sp.val w h, sp := ⟨s.sp.val + 1, by omega⟩ }
  else none

/-- SP <- SP − 1 and the value of STK[SP], or none when SP = 0 (R110). The slot keeps its value (R28). -/
def State.pop (s : State) : Option (Word × State) :=
  if h : 0 < s.sp.val then
    some (s.stk[s.sp.val - 1], { s with sp := ⟨s.sp.val - 1, by omega⟩ })
  else none

/-! ### The phases of a cycle around the handler (R91) -/

/-- Phase 1: the opcode at PC, big-endian, if both bytes exist (R92). -/
def State.fetch (s : State) : Option Word :=
  if s.pc.toNat ≤ 4094 then some (wordOfBytes (s.byteAt s.pc.toNat) (s.byteAt (s.pc.toNat + 1))) else none

/-- Phase 2: PC <- (PC + 2) mod 65536 (R93). -/
def State.advance (s : State) : State := s.setPc (s.pc + 2)

/-- One timer's tick: down by 1, clamped at 0 (R95). -/
def tickTimer (b : Byte) : Byte := if b = 0 then 0 else b - 1

/-- Phase 5: both timers tick, independently (R95). -/
def State.tick (s : State) : State := { s with dt := tickTimer s.dt, st := tickTimer s.st }

/-- What follows the handler: the tick, unless the handler raised a fault, which ends the cycle at once (R98). -/
def State.endCycle (s : State) : State := if s.fault.isNone then s.tick else s

/-- The end of the cycle after what the handler answered. -/
def finishCycle : Result → Result
  | .next s => .next s.endCycle
  | .fault f => .fault f
  | .refused r => .refused r

/-- A core that can run: no fault latched (R99). -/
abbrev State.running (s : State) : Prop := s.fault = none

end Sys2Proof.Machine
end

