-- ==== Sys2Proof/Machine/Operands.lean ====
section
/-! DEFINITION. The operand forms (spec/00_scope.md R12, spec/30_encoding.md R73): addresses formed from nnn and from I,
register blocks, key codes, the draw origin. -/

namespace Sys2Proof.Machine

/-- nnn zero-extended to 16 bits (R73). -/
def addrOf (nnn : Addr12) : Word := nnn.setWidth 16

/-- The target of `JP V0,addr`: V[0] + nnn, not reduced modulo 4096 (R118). -/
def indexedAddr (s : State) (nnn : Addr12) : Word := BitVec.ofNat 16 ((s.reg 0).toNat + nnn.toNat)

/-- I + V[x] modulo 65536 (R133, D11; log entry 15). -/
def indexPlus (s : State) (x : Reg) : Word := BitVec.ofNat 16 (s.i.toNat + (s.reg x).toNat)

/-- Whether the len bytes at I all exist; I is taken as the full 16-bit value (R57). -/
def State.indexRange (s : State) (len : Nat) : Bool := rangeExists s.i.toNat len

/-- The registers V0 to Vx, ascending: the implicit range of the block transfers, by the INDEX x (R12, R162, C7). -/
def blockRegs (x : Reg) : List Reg := (List.finRange 16).filter (fun r => r ≤ x)

/-- The bytes `LD [I],Vx` stores, in the order it stores them (R162). -/
def blockBytes (s : State) (x : Reg) : List Byte := (blockRegs x).map s.reg

/-- V[i] <- MemRead(I + i, 1) for i = 0 to x, ascending (R163). -/
def State.loadBlock (s : State) (x : Reg) : State :=
  (blockRegs x).foldl (fun t r => t.setReg r (t.byteAt (t.i.toNat + r.val))) s

/-- The key a code names: none for a code above 15 (R156, D7; log entry 8). -/
def keyOfCode (code : Byte) : Option (Fin 16) :=
  if h : code.toNat < 16 then some ⟨code.toNat, h⟩ else none

/-- The key code as a register value (R152). -/
def codeOfKey (k : Fin 16) : Byte := BitVec.ofNat 8 k.val

/-- The three decimal digits of a byte: hundreds, tens, ones (R160). -/
def decimalDigits (v : Byte) : List Byte :=
  [BitVec.ofNat 8 (v.toNat / 100), BitVec.ofNat 8 (v.toNat / 10 % 10), BitVec.ofNat 8 (v.toNat % 10)]

/-- The draw origin's column, V[x] mod 64 (R143). -/
def originColumn (s : State) (x : Reg) : Nat := (s.reg x).toNat % 64

/-- The draw origin's row, V[y] mod 32 (R143). -/
def originRow (s : State) (y : Reg) : Nat := (s.reg y).toNat % 32

end Sys2Proof.Machine
end

