-- ==== Sys2Proof/Machine/ControlFlow.lean ====
section
/-! DEFINITION. Control transfer (spec/41_control_flow.md): RET, JP, CALL, the compare-skips, JP V0. On entry PC is
already the address after the instruction (R93). -/

namespace Sys2Proof.Machine

/-- `RET`: StackUnderflow when SP = 0, before any write; else SP <- SP − 1, PC <- STK[SP] (R110, R172). -/
def execRet (s : State) : Result :=
  match s.pop with
  | some (w, t) => .next (t.setPc w)
  | none => .next (s.raise .stackUnderflow)

/-- `JP addr`: PC <- nnn (R111). -/
def execJp (nnn : Addr12) (s : State) : Result := .next (s.setPc (addrOf nnn))

/-- `CALL addr`: StackOverflow when SP = 16, before any write; else STK[SP] <- PC, SP <- SP + 1, PC <- nnn (R112, R171). -/
def execCall (nnn : Addr12) (s : State) : Result :=
  match s.push s.pc with
  | some t => .next (t.setPc (addrOf nnn))
  | none => .next (s.raise .stackOverflow)

/-- `SE Vx,byte` (R113). -/
def execSeByte (x : Reg) (kk : Byte) (s : State) : Result := .next (s.skipIf (s.reg x == kk))

/-- `SNE Vx,byte` (R114). -/
def execSneByte (x : Reg) (kk : Byte) (s : State) : Result := .next (s.skipIf (s.reg x != kk))

/-- `SE Vx,Vy` (R115). -/
def execSeReg (x y : Reg) (s : State) : Result := .next (s.skipIf (s.reg x == s.reg y))

/-- `SNE Vx,Vy` (R116). -/
def execSneReg (x y : Reg) (s : State) : Result := .next (s.skipIf (s.reg x != s.reg y))

/-- `JP V0,addr`: PC <- V[0] + nnn (R118). -/
def execJpV0 (nnn : Addr12) (s : State) : Result := .next (s.setPc (indexedAddr s nnn))

/-- `NOP`: the handler changes no state (R96). -/
def execNop (_word : Word) (s : State) : Result := .next s

end Sys2Proof.Machine
end

