-- ==== Sys2Proof/Machine/Flags.lean ====
section
/-! DEFINITION. Every flag computation (spec/10_state.md R22, R23; spec/42_load_alu.md R126 to R131) and the two orders in
which flag and result are written. A flag is the whole byte 0x00 or 0x01 (R22). -/

namespace Sys2Proof.Machine

/-- A flag as the byte VF holds (R22). -/
def flagByte (set : Bool) : Byte := if set then 0x01 else 0x00

/-- ADD's flag: the carry out, "1 if sum > 255 else 0" (R127). -/
def carryFlag (a b : Byte) : Byte := flagByte (255 < a.toNat + b.toNat)

/-- ADD's result, the sum modulo 256 (R127). -/
def sumByte (a b : Byte) : Byte := BitVec.ofNat 8 (a.toNat + b.toNat)

/-- SUB's flag for a − b, strict: equal operands give 0 (R128, R129). -/
def greaterFlag (a b : Byte) : Byte := flagByte (b.toNat < a.toNat)

/-- SUB's result, a − b modulo 256 (R128, R129). -/
def diffByte (a b : Byte) : Byte := BitVec.ofInt 8 ((a.toNat : Int) - (b.toNat : Int))

/-- SHR's flag, the bit shifted out (R130). -/
def lowBitFlag (a : Byte) : Byte := flagByte (a.toNat % 2 = 1)

/-- SHR's result, a logical shift by one (R130, R136). -/
def shrByte (a : Byte) : Byte := BitVec.ofNat 8 (a.toNat / 2)

/-- SHL's flag, the bit shifted out (R131). -/
def highBitFlag (a : Byte) : Byte := flagByte (a.toNat / 128 = 1)

/-- SHL's result modulo 256 (R131, R136). -/
def shlByte (a : Byte) : Byte := BitVec.ofNat 8 (a.toNat * 2)

/-- ADD, SUB, SUBN: VF first, V[x] last, so the result survives when x = F (R126). -/
def State.writeFlagThenResult (s : State) (x : Reg) (flag result : Byte) : State :=
  (s.setReg VF flag).setReg x result

/-- SHR, SHL: V[x] first, VF last, so the flag survives when x = F (R126, C2; log entry 12). -/
def State.writeResultThenFlag (s : State) (x : Reg) (flag result : Byte) : State :=
  (s.setReg x result).setReg VF flag

end Sys2Proof.Machine
end

