-- ==== Sys2Proof/Machine/Display.lean ====
section
/-! DEFINITION. The display (spec/43_display.md): CLS, DRW, LD F. -/

namespace Sys2Proof.Machine

/-- What a draw in progress has done: the display so far, and whether a drawn sprite bit met an on cell (R143). -/
structure Canvas where
  fb : Framebuffer
  hit : Bool
  deriving DecidableEq, Repr

/-- FB[py][px] <- FB[py][px] xor 1 (R143). -/
def flipCell (fb : Framebuffer) (py : Fin 32) (px : Fin 64) : Framebuffer :=
  fb.set py.val (fb[py].set px.val (!fb[py][px]) px.isLt) py.isLt

/-- One pixel of the loop of R143: a 1 bit at a position on the display flips the cell and notes the collision; a 0 bit
changes nothing; a position past an edge is dropped (R144, D4; log entry 13). -/
def drawPixel (xPos yPos row : Nat) (b : Byte) (c : Canvas) (col : Nat) : Canvas :=
  if b.getLsbD (7 - col) = false then c
  else if h : xPos + col ≤ 63 ∧ yPos + row ≤ 31 then
    let py : Fin 32 := ⟨yPos + row, by omega⟩
    let px : Fin 64 := ⟨xPos + col, by omega⟩
    { fb := flipCell c.fb py px, hit := c.hit || c.fb[py][px] }
  else c

/-- One sprite row: columns 0 to 7, column 0 the most significant bit (R141, R143). -/
def drawRow (xPos yPos row : Nat) (b : Byte) (c : Canvas) : Canvas :=
  (List.range 8).foldl (drawPixel xPos yPos row b) c

/-- The sprite of n rows at I, rows ascending (R141, R143). -/
def drawSprite (s : State) (xPos yPos n : Nat) (c : Canvas) : Canvas :=
  (List.range n).foldl (fun d row => drawRow xPos yPos row (s.byteAt (s.i.toNat + row)) d) c

/-- `CLS`: every cell off; VF is not written (R142). -/
def execCls (s : State) : Result := .next (s.setFb Framebuffer.clear)

/-- `DRW Vx,Vy,n`: origin read first (D5), the range of all n rows checked before any write, then the sprite drawn by
exclusive or from VF = 0, VF = 1 if a sprite bit met an on cell (R143). -/
def execDrw (x y : Reg) (n : Fin 16) (s : State) : Result :=
  if s.indexRange n.val then
    let c := drawSprite s (originColumn s x) (originRow s y) n.val { fb := s.fb, hit := false }
    .next ((s.setFb c.fb).setReg VF (flagByte c.hit))
  else .next (s.raise .memOutOfRange)

/-- `LD F,Vx`: I <- FONT_BASE + 5 × V[x] (R146). -/
def execLdFVx (x : Reg) (s : State) : Result := .next (s.setI (glyphAddress s.font (s.reg x)))

end Sys2Proof.Machine
end

