-- ==== Sys2Proof/Machine/KeypadTimers.lean ====
section
/-! DEFINITION. Keypad and timer instructions (spec/44_keypad_timers.md). KEY is constant during a cycle (R100). -/

namespace Sys2Proof.Machine

/-- `SKP Vx`: KeyIndexOutOfRange when V[x] > 15; else skip if that key is pressed (R150, R156). -/
def execSkp (x : Reg) (s : State) : Result :=
  match keyOfCode (s.reg x) with
  | some k => .next (s.skipIf (s.keyDown k))
  | none => .next (s.raise .keyIndexOutOfRange)

/-- `SKNP Vx`: KeyIndexOutOfRange when V[x] > 15; else skip if that key is not pressed (R151, R156). -/
def execSknp (x : Reg) (s : State) : Result :=
  match keyOfCode (s.reg x) with
  | some k => .next (s.skipIf (!s.keyDown k))
  | none => .next (s.raise .keyIndexOutOfRange)

/-- `LD Vx,K`: the lowest pressed key's code to V[x]; with no key pressed PC goes back to the instruction, so the next
cycle runs it again (R152). -/
def execLdVxK (x : Reg) (s : State) : Result :=
  match s.firstKey with
  | some k => .next (s.setReg x (codeOfKey k))
  | none => .next s.rewind

/-- `LD Vx,DT`: V[x] <- DT (R153). -/
def execLdVxDt (x : Reg) (s : State) : Result := .next (s.setReg x s.dt)

/-- `LD DT,Vx`: DT <- V[x]; the tick of the same cycle acts on the new value (R154). -/
def execLdDtVx (x : Reg) (s : State) : Result := .next (s.setDt (s.reg x))

/-- `LD ST,Vx`: ST <- V[x] (R155). -/
def execLdStVx (x : Reg) (s : State) : Result := .next (s.setSt (s.reg x))

end Sys2Proof.Machine
end

