-- ==== Sys2Proof/Machine/LoadAlu.lean ====
section
/-! DEFINITION. Register loads, arithmetic, logic, shifts, index arithmetic, random (spec/42_load_alu.md). Operands are
read before any write (spec/40_cycle_and_dispatch.md R97, D9; log entry 11). -/

namespace Sys2Proof.Machine

/-- `LD Vx,byte`: V[x] <- kk (R120). -/
def execLdByte (x : Reg) (kk : Byte) (s : State) : Result := .next (s.setReg x kk)

/-- `ADD Vx,byte`: V[x] <- (V[x] + kk) mod 256, no flag (R121). -/
def execAddByte (x : Reg) (kk : Byte) (s : State) : Result := .next (s.setReg x (sumByte (s.reg x) kk))

/-- `LD Vx,Vy`: V[x] <- V[y] (R122). -/
def execLdReg (x y : Reg) (s : State) : Result := .next (s.setReg x (s.reg y))

/-- `OR Vx,Vy`; VF is not written (R123). -/
def execOrReg (x y : Reg) (s : State) : Result := .next (s.setReg x (s.reg x ||| s.reg y))

/-- `AND Vx,Vy`; VF is not written (R124). -/
def execAndReg (x y : Reg) (s : State) : Result := .next (s.setReg x (s.reg x &&& s.reg y))

/-- `XOR Vx,Vy`; VF is not written (R125). -/
def execXorReg (x y : Reg) (s : State) : Result := .next (s.setReg x (s.reg x ^^^ s.reg y))

/-- `ADD Vx,Vy` with carry out to VF (R127). -/
def execAddReg (x y : Reg) (s : State) : Result :=
  .next (s.writeFlagThenResult x (carryFlag (s.reg x) (s.reg y)) (sumByte (s.reg x) (s.reg y)))

/-- `SUB Vx,Vy`: V[x] − V[y], VF = 1 exactly when V[x] > V[y] (R128). -/
def execSubReg (x y : Reg) (s : State) : Result :=
  .next (s.writeFlagThenResult x (greaterFlag (s.reg x) (s.reg y)) (diffByte (s.reg x) (s.reg y)))

/-- `SUBN Vx,Vy`: V[y] − V[x] into V[x], VF = 1 exactly when V[y] > V[x] (R129). -/
def execSubnReg (x y : Reg) (s : State) : Result :=
  .next (s.writeFlagThenResult x (greaterFlag (s.reg y) (s.reg x)) (diffByte (s.reg y) (s.reg x)))

/-- `SHR Vx`; y is decoded and ignored (R130). -/
def execShr (x _y : Reg) (s : State) : Result :=
  .next (s.writeResultThenFlag x (lowBitFlag (s.reg x)) (shrByte (s.reg x)))

/-- `SHL Vx`; y is decoded and ignored (R131). -/
def execShl (x _y : Reg) (s : State) : Result :=
  .next (s.writeResultThenFlag x (highBitFlag (s.reg x)) (shlByte (s.reg x)))

/-- `LD I,addr`: I <- nnn (R132). -/
def execLdI (nnn : Addr12) (s : State) : Result := .next (s.setI (addrOf nnn))

/-- `ADD I,Vx`: I <- (I + V[x]) mod 65536, no flag (R133). -/
def execAddIVx (x : Reg) (s : State) : Result := .next (s.setI (indexPlus s x))

/-- `RND Vx,byte`: r = Rand(); V[x] <- r and kk; one byte consumed (R134). -/
def execRnd (x : Reg) (kk : Byte) (s : State) : Result :=
  .next ((s.setReg x (s.randomByte &&& kk)).countDraw)

end Sys2Proof.Machine
end

