-- ==== Sys2Proof/Machine/MemoryTransfer.lean ====
section
/-! DEFINITION. Memory transfer (spec/45_memory_transfer.md). The range is checked before any write (R57, D20), and none
of the three modifies I (R164). -/

namespace Sys2Proof.Machine

/-- `LD B,Vx`: hundreds, tens, ones of V[x] at I, I + 1, I + 2 (R160). -/
def execLdBVx (x : Reg) (s : State) : Result :=
  if s.indexRange 3 then .next (s.setBytes s.i.toNat (decimalDigits (s.reg x)))
  else .next (s.raise .memOutOfRange)

/-- `LD [I],Vx`: V0 to Vx, inclusive, at I to I + x (R162). -/
def execStoreRegs (x : Reg) (s : State) : Result :=
  if s.indexRange (x.val + 1) then .next (s.setBytes s.i.toNat (blockBytes s x))
  else .next (s.raise .memOutOfRange)

/-- `LD Vx,[I]`: V0 to Vx, inclusive, from I to I + x (R163). -/
def execLoadRegs (x : Reg) (s : State) : Result :=
  if s.indexRange (x.val + 1) then .next (s.loadBlock x)
  else .next (s.raise .memOutOfRange)

end Sys2Proof.Machine
end

