-- ==== Sys2Proof/Machine/HostPort.lean ====
section
/-! DEFINITION. What the host may do between two cycles (spec/10_state.md R38, spec/40_cycle_and_dispatch.md R100):
reset, LoadImage, keypad write, display read. Invoking Cycle is Sys2Proof.Machine.step. -/

namespace Sys2Proof.Machine

/-- `LoadImage(bytes)`: more than 3584 bytes latches ImageTooLarge and writes nothing; else byte i goes to 0x200 + i and
nothing else changes (R65, R173). -/
def State.loadImage (s : State) (image : List Byte) : State :=
  if image.length ≤ Config.maxImage then s.setBytes Config.bootAddr image
  else s.raise .imageTooLarge

/-- The host's keypad write: all 16 cells (R34, R100). -/
def State.writeKeys (s : State) (keys : Vector Bool 16) : State := { s with key := keys }

/-- Reset: every piece of state to R39's value, a loaded image and the fault latch included (R190). The random source is
not reset (R192), so the draws go on (log entry 4); the machine's font parameters stay (log entry 26). -/
def State.hostReset (s : State) : State := { State.resetWith s.font with draws := s.draws }

/-- The display as the host reads it: 2048 cells, row-major (R32, D17; log entry 22). -/
def State.display (s : State) : List Bool :=
  (List.finRange 32).flatMap (fun py => (List.finRange 64).map (fun px => s.cell py px))

/-- A word stored at PC and PC + 1, most significant byte first, where both exist: what a host image that holds the
word at that place would have put there (R54, R65; log entry 17). -/
def State.placeWord (s : State) (w : Word) : State :=
  if s.pc.toNat ≤ 4094 then s.setBytes s.pc.toNat (wordBytes w) else s

end Sys2Proof.Machine
end

