-- ==== Sys2Proof/Machine/Step.lean ====
section
/-! DEFINITION. The cycle (spec/40_cycle_and_dispatch.md R91): one step of the core. -/

namespace Sys2Proof.Machine

/-- `Cycle()` (R91). A core with its fault latch set is halted: no fetch, no advance, no tick, and the step answers the
latched cause, a terminal outcome (R99, R178; log entry 5). Otherwise: fetch (R92), advance PC (R93), decode, one
handler (R94), then the timer tick unless the handler raised a fault (R95, R98). -/
def step (s : State) : Host.Outcome State Fault Refusal :=
  match s.fault with
  | some f => .fault f
  | none =>
    match s.fetch with
    | none => .next (s.raise .fetchOutOfRange)
    | some op => finishCycle (exec (decodeWord op) s.advance)

/-- The state with the instruction of the table's bits stored at PC, where `step` fetches next (log entry 17). -/
def State.withFetchWord (s : State) (nbits w : Nat) : State := s.placeWord (tableWord nbits w)

end Sys2Proof.Machine
end

