-- ==== Sys2Proof/Safety.lean ====
section
/-! DEFINITION. The terms the statements use: frames, the invariant of the machine, what stands at PC, the sprite of a
draw, the reset values, and a stopped program. -/

namespace Sys2Proof.Machine

/-! ### Frames -/

/-- The fields of the state other than the general registers and Memory, for frames. -/
inductive Field where
  | i | pc | stk | sp | dt | st | fb | key | fault | draws | font
  deriving DecidableEq, Repr

/-- The field is the same in both states; the display cell by cell. -/
def Field.same (f : Field) (s t : State) : Prop :=
  match f with
  | .i => t.i = s.i
  | .pc => t.pc = s.pc
  | .stk => t.stk = s.stk
  | .sp => t.sp = s.sp
  | .dt => t.dt = s.dt
  | .st => t.st = s.st
  | .fb => ∀ py px, t.cell py px = s.cell py px
  | .key => t.key = s.key
  | .fault => t.fault = s.fault
  | .draws => t.draws = s.draws
  | .font => t.font = s.font

/-- t is s but for the listed registers, the listed fields, and the bytes at addresses that `bytes` admits: every other
register, every other field and every other byte of Memory is unchanged. -/
def Frame (s t : State) (regs : List Reg) (fields : List Field) (bytes : Nat → Prop) : Prop :=
  (∀ r, r ∉ regs → t.reg r = s.reg r) ∧
  (∀ f, f ∉ fields → Field.same f s t) ∧
  (∀ a, ¬ bytes a → t.byteAt a = s.byteAt a)

/-- No byte of Memory. -/
abbrev noBytes : Nat → Prop := fun _ => False

/-- The len bytes at base. -/
abbrev bytesFrom (base len : Nat) : Nat → Prop := fun a => base ≤ a ∧ a < base + len

/-! ### What a cycle runs -/

/-- A running core whose PC is fetchable and whose two bytes at PC decode to i (R91, R92). -/
def Fetches (s : State) (i : Instr) : Prop :=
  s.running ∧ s.pc.toNat ≤ 4094 ∧
  decode [s.byteAt s.pc.toNat, s.byteAt (s.pc.toNat + 1)] = .ok (i, [])

/-! ### The invariant (spec/10_state.md R27, R40) -/

/-- What every reachable state meets: the font's 80 bytes wholly below the boot address (R7); Memory in its canonical
form; PC at most 0x10FE, the largest value any instruction leaves (R27); and each outstanding return address one that a
CALL can have saved, 2 to 4096 (R40, R112). The bounds of R40 on V, I, DT, ST, SP, FB and KEY are carried by the types of
the state. -/
def Invariant (s : State) : Prop :=
  s.font.fits ∧ Memory.wf s.font s.mem ∧ s.pc.toNat ≤ 0x10FE ∧
  ∀ k : Fin 16, k.val < s.sp.val → 2 ≤ (s.stk[k]).toNat ∧ (s.stk[k]).toNat ≤ 4096

/-! ### The state after reset (spec/10_state.md R39, spec/70_reset_and_hazards.md R190, R191) -/

/-- Every piece of state at R39's value: registers, timers, stack, pointers, display, keys and latch, and every byte of
Memory, the font's at FONT_BASE where the parameters are as R7 bounds them and 0x00 elsewhere. -/
def HasResetValues (t : State) : Prop :=
  (∀ r, t.reg r = 0) ∧ t.i = 0 ∧ t.pc = 0x200 ∧ t.sp.val = 0 ∧ (∀ k : Fin 16, t.stk[k] = 0) ∧ t.dt = 0 ∧ t.st = 0 ∧
  (∀ py px, t.cell py px = false) ∧ (∀ k, t.keyDown k = false) ∧ t.fault = none ∧
  (t.font.fits → (∀ k : Fin 80, t.font.data[k.val]? = some (t.byteAt (t.font.base + k.val))) ∧
    ∀ a, a < t.font.base ∨ t.font.base + 80 ≤ a → t.byteAt a = 0)

/-! ### The sprite of a draw (spec/43_display.md R141, R145) -/

/-- The sprite bit that covers display cell (py, px) when n rows at I are drawn with origin (xPos, yPos): false if none
does. Byte `row` is sprite row `row`; column `col` is bit 7 − col. -/
def spriteBit (s : State) (xPos yPos n : Nat) (py : Fin 32) (px : Fin 64) : Bool :=
  decide (xPos ≤ px.val ∧ px.val < xPos + 8 ∧ yPos ≤ py.val ∧ py.val < yPos + n) &&
  (s.byteAt (s.i.toNat + (py.val - yPos))).getLsbD (7 - (px.val - xPos))

/-! ### A stopped program (spec/40_cycle_and_dispatch.md R102, D22) -/

/-- The spec's convention for the end of a program: a running core about to execute `JP a` at address a. -/
def Stopped (s : State) : Prop := ∃ a : Addr12, s.pc = addrOf a ∧ Fetches s (.jp a)

end Sys2Proof.Machine
end

