-- ==== Sys2Proof/Certificates/Slice0/Obligations.lean ====
section
/-! DEFINITION. The statements about the core, each a Prop for the provers. A docstring names the rule a statement
formalises, and the spec's own decisions (D<n>) it rests on where it rests on one. -/

namespace Sys2Proof.Machine

/-! ### What an instruction may write, for the frame of every instruction -/

/-- The general registers an instruction may write (R23 and each instruction's rule). -/
def Instr.mayWriteRegs : Instr → List Reg
  | .ldByte x _ | .addByte x _ | .ldReg x _ | .orReg x _ | .andReg x _ | .xorReg x _ => [x]
  | .rnd x _ | .ldVxDt x | .ldVxK x => [x]
  | .addReg x _ | .subReg x _ | .subnReg x _ | .shr x _ | .shl x _ => [x, VF]
  | .drw _ _ _ => [VF]
  | .loadRegs x => blockRegs x
  | _ => []

/-- The other fields an instruction may write (R25, R27, R67, and the faults of R170). PC is the one the handler moves
beyond the cycle's own advance. -/
def Instr.mayWriteFields : Instr → List Field
  | .cls => [.fb]
  | .ret => [.pc, .sp, .fault]
  | .call _ => [.pc, .stk, .sp, .fault]
  | .jp _ | .jpV0 _ | .seByte _ _ | .sneByte _ _ | .seReg _ _ | .sneReg _ _ | .ldVxK _ => [.pc]
  | .skp _ | .sknp _ => [.pc, .fault]
  | .ldI _ | .addIVx _ | .ldFVx _ => [.i]
  | .rnd _ _ => [.draws]
  | .drw _ _ _ => [.fb, .fault]
  | .ldDtVx _ => [.dt]
  | .ldStVx _ => [.st]
  | .ldBVx _ | .storeRegs _ | .loadRegs _ => [.fault]
  | _ => []

/-- The bytes an instruction may store to (R67): three at I for LD B, x + 1 at I for LD [I],Vx. -/
def Instr.mayWriteBytes (s : State) : Instr → Nat → Prop
  | .ldBVx _ => bytesFrom s.i.toNat 3
  | .storeRegs x => bytesFrom s.i.toNat (x.val + 1)
  | _ => noBytes

end Sys2Proof.Machine

open Sys2Proof Sys2Proof.Machine

/-! ## Encoding -/

/-- Words written out from the encodings of spec/30_encoding.md R81 (and the spec's table B.1), one or more per family,
decode to the instruction they stand for. The opcode values rest on D1, but 6xkk, 8xy4, Fx55 and Fx65. -/
def Obligations.SampleWordsDecodeAsTheSpecLists : Prop :=
  decodeWord 0x00E0 = .cls ∧ decodeWord 0x0000 = .cls ∧ decodeWord 0x00EE = .ret ∧ decodeWord 0x00FD = .nop 0x00FD ∧
  decodeWord 0x1ABC = .jp 0xABC ∧ decodeWord 0x2206 = .call 0x206 ∧ decodeWord 0x3100 = .seByte 1 0x00 ∧
  decodeWord 0x4308 = .sneByte 3 0x08 ∧ decodeWord 0x5127 = .seReg 1 2 ∧ decodeWord 0x600A = .ldByte 0 10 ∧
  decodeWord 0x71FF = .addByte 1 0xFF ∧ decodeWord 0x8014 = .addReg 0 1 ∧ decodeWord 0x8AB6 = .shr 10 11 ∧
  decodeWord 0x8127 = .subnReg 1 2 ∧ decodeWord 0x8018 = .nop 0x8018 ∧ decodeWord 0x9AB5 = .sneReg 10 11 ∧
  decodeWord 0xA300 = .ldI 0x300 ∧ decodeWord 0xBFFF = .jpV0 0xFFF ∧ decodeWord 0xC3FF = .rnd 3 0xFF ∧
  decodeWord 0xD12F = .drw 1 2 15 ∧ decodeWord 0xE29E = .skp 2 ∧ decodeWord 0xE201 = .sknp 2 ∧
  decodeWord 0xE29F = .nop 0xE29F ∧ decodeWord 0xF155 = .storeRegs 1 ∧ decodeWord 0xF165 = .loadRegs 1 ∧
  decodeWord 0xF00E = .nop 0xF00E

/-- Decode and encode agree for every well-formed instruction, with every operand at every value, and whatever bytes
follow: no bit of an encoding is dropped. -/
def Obligations.EncodedInstructionsDecodeBack : Prop :=
  ∀ (i : Instr) (rest : List Byte), i.wellFormed = true → decode (encodeBytes i ++ rest) = .ok (i, rest)

/-- The decoder by cases (R83) and the opcode map by mask and match (R81) are one function: every word decodes to the row
it selects, or to NOP if it selects none. -/
def Obligations.DecoderAgreesWithTheOpcodeMap : Prop :=
  ∀ w : Word, decodeWord w = lookupRows opcodeRows w

/-- "The rows are mutually exclusive" (R81): no word selects two rows of the opcode map. -/
def Obligations.OpcodeRowsAreMutuallyExclusive : Prop :=
  ∀ w : Word, (opcodeRows.filter (fun r => r.selects w)).length ≤ 1

/-- The words that decode to NOP are exactly the unmapped words of R78, and such a NOP holds its own word. -/
def Obligations.UnmappedWordsAreExactlyTheNops : Prop :=
  ∀ w : Word, (Unmapped w → decodeWord w = .nop w) ∧ (∀ u : Word, decodeWord w = .nop u → u = w ∧ Unmapped w)

/-- Every word decodes to a well-formed instruction, whose canonical word decodes to it again. -/
def Obligations.DecodedWordsAreWellFormed : Prop :=
  ∀ w : Word, (decodeWord w).wellFormed = true ∧ decodeWord (encode (decodeWord w)) = decodeWord w

/-- The bits R72 shows as ignored select nothing and change nothing: bits 11-4 of CLS and RET, bits 7-4 of SKP and SKNP,
bits 3-0 of families 5 and 9, and the y field of SHR and SHL. -/
def Obligations.IgnoredBitsChangeNothing : Prop :=
  (∀ w u : Word, bits w 15 12 = bits u 15 12 → bits w 3 0 = bits u 3 0 →
    (bits w 15 12 = 0x0 → bits w 3 0 = 0x0 ∨ bits w 3 0 = 0xE → decodeWord w = decodeWord u) ∧
    (bits w 15 12 = 0xE → bits w 11 8 = bits u 11 8 → bits w 3 0 = 0x1 ∨ bits w 3 0 = 0xE →
      decodeWord w = decodeWord u)) ∧
  (∀ w u : Word, bits w 15 4 = bits u 15 4 → bits w 15 12 = 0x5 ∨ bits w 15 12 = 0x9 → decodeWord w = decodeWord u) ∧
  (∀ (x y z : Reg) (s : State), exec (.shr x y) s = exec (.shr x z) s ∧ exec (.shl x y) s = exec (.shl x z) s)

/-! ## The cycle -/

/-- R54: the fetch is big-endian. The word a running core decodes is `MEM[PC] × 256 + MEM[PC+1]`, the byte at the lower
address holds the family nibble and the x field, and the document's bytes 60 0A are the opcode 0x600A. -/
def Obligations.FetchIsBigEndian : Prop :=
  wordOfBytes 0x60 0x0A = 0x600A ∧
  ∀ s : State, s.running → s.pc.toNat ≤ 4094 → ∃ op : Word,
    op.toNat = (s.byteAt s.pc.toNat).toNat * 256 + (s.byteAt (s.pc.toNat + 1)).toNat ∧
    bits op 15 12 = (s.byteAt s.pc.toNat).toNat / 16 ∧
    bits op 11 8 = (s.byteAt s.pc.toNat).toNat % 16 ∧
    Fetches s (decodeWord op) ∧
    step s = finishCycle (exec (decodeWord op) { s with pc := s.pc + 2 })

/-- A step runs the decoded instruction: on a running core at whose PC the bytes of instruction i stand, exec of i on the
state with PC advanced by 2 answers a next state, and the step answers that state, with one tick of both timers added
unless the handler raised a fault (R91). -/
def Obligations.StepRunsTheDecodedInstruction : Prop :=
  ∀ (s : State) (i : Instr), Fetches s i → ∃ t, exec i { s with pc := s.pc + 2 } = .next t ∧
    (t.fault = none → step s = .next { t with dt := tickTimer t.dt, st := tickTimer t.st }) ∧
    (t.fault ≠ none → step s = .next t)

/-- PC is advanced by 2 before the handler, and what each control transfer makes of it (R93). For an instruction at address
a = s.pc: the handler runs on PC = a + 2, which is not a; CALL saves a + 2; a taken skip ends at a + 4; `LD Vx,K` without
a key ends at a; JP, CALL, RET and JP V0 overwrite the advanced value; everything else ends at a + 2. -/
def Obligations.PcIsAdvancedBeforeTheHandler : Prop :=
  ∀ (s t : State) (i : Instr), Fetches s i → step s = .next t → t.fault = none →
    step s = finishCycle (exec i { s with pc := s.pc + 2 }) ∧ s.pc + 2 ≠ s.pc ∧
    (∀ nnn, i = .call nnn → t.stk[s.sp.val]? = some (s.pc + 2)) ∧
    match i with
    | .jp nnn | .call nnn => t.pc.toNat = nnn.toNat
    | .jpV0 nnn => t.pc.toNat = (s.reg 0).toNat + nnn.toNat
    | .ret => s.stk[s.sp.val - 1]? = some t.pc
    | .seByte x kk => t.pc = if s.reg x = kk then s.pc + 4 else s.pc + 2
    | .sneByte x kk => t.pc = if s.reg x ≠ kk then s.pc + 4 else s.pc + 2
    | .seReg x y => t.pc = if s.reg x = s.reg y then s.pc + 4 else s.pc + 2
    | .sneReg x y => t.pc = if s.reg x ≠ s.reg y then s.pc + 4 else s.pc + 2
    | .skp x => t.pc = if ∃ k : Fin 16, k.val = (s.reg x).toNat ∧ s.keyDown k = true then s.pc + 4 else s.pc + 2
    | .sknp x => t.pc = if ∃ k : Fin 16, k.val = (s.reg x).toNat ∧ s.keyDown k = false then s.pc + 4 else s.pc + 2
    | .ldVxK _ => t.pc = if ∃ k, s.keyDown k = true then s.pc + 2 else s.pc
    | _ => t.pc = s.pc + 2

/-- The timers after a cycle that raised no fault: each went down by exactly 1 if above 0, acting on the value the handler
left, which is V[x] for `LD DT,Vx` (DT) and `LD ST,Vx` (ST) and the old value for every other instruction (R95, R154,
R155). -/
def Obligations.TimersTickOncePerCycle : Prop :=
  ∀ (s t : State) (i : Instr), Fetches s i → step s = .next t → t.fault = none →
    t.dt.toNat = (match i with | .ldDtVx x => (s.reg x).toNat | _ => s.dt.toNat) - 1 ∧
    t.st.toNat = (match i with | .ldStVx x => (s.reg x).toNat | _ => s.st.toNat) - 1

/-- A running core always steps: every cycle executes an instruction or latches a fault, and no handler, on any state,
answers a fault outcome or a refusal (R79, R102; the latch is D12, log entry 5). -/
def Obligations.RunningCoreAlwaysSteps : Prop :=
  (∀ s : State, s.running → ∃ t, step s = .next t) ∧ ∀ (i : Instr) (s : State), ∃ t, exec i s = .next t

/-! ## Faults (the latch is D12, the state after a fault D13, the halt D14: log entries 5 and 6) -/

/-- A fetch at PC > 4094 latches FetchOutOfRange and changes nothing else: PC is not advanced and no timer ticks (R174;
D6, D13). -/
def Obligations.FetchOutsideMemoryFaults : Prop :=
  ∀ s : State, s.running → 4094 < s.pc.toNat → step s = .next { s with fault := some .fetchOutOfRange }

/-- A core with its fault latch set has no next state: the step answers the latched cause (R99, R178; D14, log entry 5).
Neither LoadImage nor a keypad write clears the latch; reset does. -/
def Obligations.HaltedCoreStaysHalted : Prop :=
  ∀ (s : State) (f : Fault), s.fault = some f →
    step s = .fault f ∧ (∀ bytes, (s.loadImage bytes).fault ≠ none) ∧ (∀ keys, (s.writeKeys keys).fault = some f) ∧
    s.hostReset.fault = none

/-- Faults are precise (R182, R98; D13): a cycle that latches a fault leaves the state it started from, with PC advanced
by 2 unless the fetch itself faulted; no register, Memory cell, stack slot, display cell or timer differs otherwise. -/
def Obligations.FaultsArePrecise : Prop :=
  ∀ (s t : State) (f : Fault), s.running → step s = .next t → t.fault = some f →
    t = { s with pc := if f = .fetchOutOfRange then s.pc else s.pc + 2, fault := some f }

/-- Each cause has exactly the raisers and the condition R170 gives it (D6, D7): the cause a cycle leaves in the latch. -/
def Obligations.EachFaultHasItsOwnCause : Prop :=
  (∀ (s t : State), s.running → step s = .next t →
    ((t.fault = some .fetchOutOfRange ↔ 4094 < s.pc.toNat) ∧ t.fault ≠ some .imageTooLarge)) ∧
  (∀ (s t : State) (i : Instr), Fetches s i → step s = .next t →
    (t.fault = some .stackOverflow ↔ (∃ nnn, i = .call nnn) ∧ s.sp.val = 16) ∧
    (t.fault = some .stackUnderflow ↔ i = .ret ∧ s.sp.val = 0) ∧
    (t.fault = some .keyIndexOutOfRange ↔ ∃ x, (i = .skp x ∨ i = .sknp x) ∧ 15 < (s.reg x).toNat) ∧
    (t.fault = some .memOutOfRange ↔
      (∃ x y n, i = .drw x y n ∧ 1 ≤ n.val ∧ 4095 < s.i.toNat + n.val - 1) ∨
      (∃ x, i = .ldBVx x ∧ 4095 < s.i.toNat + 2) ∨
      (∃ x, (i = .storeRegs x ∨ i = .loadRegs x) ∧ 4095 < s.i.toNat + x.val)))

/-- StackOverflow and StackUnderflow (R171, R172): CALL with SP = 16 and RET with SP = 0 raise them before any write; STK,
SP and everything else keep their values and PC is a + 2. That a raised fault shows in the latch is the spec's mechanism
(R176, D12) and the skipped tick its D13 (log entries 5 and 6). -/
def Obligations.StackFaultsWriteNothing : Prop :=
  (∀ (s : State) (nnn : Addr12), Fetches s (.call nnn) → s.sp.val = 16 →
    step s = .next { s with pc := s.pc + 2, fault := some .stackOverflow }) ∧
  (∀ s : State, Fetches s .ret → s.sp.val = 0 →
    step s = .next { s with pc := s.pc + 2, fault := some .stackUnderflow })

/-- The four Memory instructions check the whole range before any write (R57, R175; D6, D20): when the last byte's address
is above 4095 the handler latches MemOutOfRange and changes nothing else. -/
def Obligations.MemoryRangeIsCheckedBeforeAnyWrite : Prop :=
  (∀ (x y : Reg) (n : Fin 16) (s : State), 1 ≤ n.val → 4095 < s.i.toNat + n.val - 1 →
    exec (.drw x y n) s = .next { s with fault := some .memOutOfRange }) ∧
  (∀ (x : Reg) (s : State), 4095 < s.i.toNat + 2 →
    exec (.ldBVx x) s = .next { s with fault := some .memOutOfRange }) ∧
  (∀ (x : Reg) (s : State), 4095 < s.i.toNat + x.val →
    exec (.storeRegs x) s = .next { s with fault := some .memOutOfRange } ∧
    exec (.loadRegs x) s = .next { s with fault := some .memOutOfRange })

/-- SKP and SKNP with V[x] > 15 latch KeyIndexOutOfRange and change nothing else, PC included (R156, R177; D7). -/
def Obligations.KeyCodeAboveFifteenFaults : Prop :=
  ∀ (x : Reg) (s : State), 15 < (s.reg x).toNat →
    exec (.skp x) s = .next { s with fault := some .keyIndexOutOfRange } ∧
    exec (.sknp x) s = .next { s with fault := some .keyIndexOutOfRange }

/-! ## Whole-machine rules -/

/-- The invariant holds right after reset, with the default font parameters and with any that R7's bound admits (log entry
26). -/
def Obligations.ResetMeetsTheInvariant : Prop :=
  Invariant State.reset ∧ ∀ p : FontParams, p.fits → Invariant (State.resetWith p)

/-- Every step keeps the invariant, from every state that meets it. -/
def Obligations.StepKeepsTheInvariant : Prop :=
  ∀ s t : State, Invariant s → step s = .next t → Invariant t

/-- Every host operation keeps the invariant: reset, a keypad write, and LoadImage. Memory's form is the model's (log entry
16), and that LoadImage may be applied to any state, in the middle of a run too, is its choice (D18, R66; log entry 19). -/
def Obligations.HostOperationsKeepTheInvariant : Prop :=
  ∀ s : State, Invariant s →
    (∀ bytes, Invariant (s.loadImage bytes)) ∧ (∀ keys, Invariant (s.writeKeys keys)) ∧ Invariant s.hostReset

/-- The canonical form (log entry 16) is canonical, for every choice of the font parameters: two Memories that read the same
at every address are the same list. -/
def Obligations.EqualReadsAreEqualMemories : Prop :=
  ∀ (p : FontParams) (m n : Memory), Memory.wf p m → Memory.wf p n →
    (∀ a, Memory.read p m a = Memory.read p n a) → m = n

/-- The frame of every instruction, on every state, a raised fault included: it changes at most the registers, fields and
bytes that `Instr.mayWriteRegs`, `Instr.mayWriteFields` and `Instr.mayWriteBytes` list for it. In particular VF changes as
a side effect only under ADD, SUB, SUBN, SHR, SHL (register forms) and DRW (R23); only CLS and DRW change display cells
(R140); only LD B and LD [I],Vx change Memory, only CALL a stack slot, only CALL and RET SP, only RND consumes a random
byte, none KEY (R67, R34); of the three memory transfers none changes I (R164). -/
def Obligations.EveryInstructionKeepsItsFrame : Prop :=
  ∀ (i : Instr) (s t : State), exec i s = .next t →
    Frame s t (Instr.mayWriteRegs i) (Instr.mayWriteFields i) (Instr.mayWriteBytes s i)

/-- No instruction reads ST (R31): two states that differ in ST only step to states that differ in ST at most. -/
def Obligations.SoundTimerInfluencesNothing : Prop :=
  ∀ (s : State) (b : Byte), s.running →
    ∃ t c, step s = .next t ∧ step { s with st := b } = .next { t with st := c }

/-- Stack slots at or above SP are dead (R28): two states that differ there only step to states that differ there only, so
no program sees what a popped slot holds. -/
def Obligations.DeadStackSlotsAreNeverSeen : Prop :=
  ∀ (s t : State) (stk : Vector Word 16), (∀ k : Fin 16, k.val < s.sp.val → stk[k] = s.stk[k]) →
    step s = .next t →
    ∃ stk' : Vector Word 16, step { s with stk := stk } = .next { t with stk := stk' } ∧
      ∀ k : Fin 16, k.val < t.sp.val → stk'[k] = t.stk[k]

/-- A stopped program stays stopped (R102; the convention is D22, log entry 25): a core executing `JP a` at a steps to a
state that differs only by the tick of DT and ST, and is stopped again. -/
def Obligations.StoppedProgramStaysStopped : Prop :=
  ∀ s : State, Stopped s → ∃ t, step s = .next t ∧ Stopped t ∧ t = { s with dt := t.dt, st := t.st } ∧
    t.dt.toNat = s.dt.toNat - 1 ∧ t.st.toNat = s.st.toNat - 1

/-! ## Control transfer -/

/-- `JP addr` and `JP V0,addr` go to nnn and to V0 + nnn, the sum not masked; nothing else changes (R111, R118). -/
def Obligations.JumpsGoToTheirTarget : Prop :=
  ∀ (nnn : Addr12) (s : State),
    (∃ t, exec (.jp nnn) s = .next t ∧ t.pc.toNat = nnn.toNat ∧ Frame s t [] [.pc] noBytes) ∧
    (∃ t, exec (.jpV0 nnn) s = .next t ∧ t.pc.toNat = (s.reg 0).toNat + nnn.toNat ∧ Frame s t [] [.pc] noBytes)

/-- `CALL addr` with SP ≤ 15: the slot at SP gets PC (the address after the CALL), SP goes up by 1, PC is nnn; no other
slot and nothing else changes (R112). -/
def Obligations.CallPushesTheReturnAddress : Prop :=
  ∀ (nnn : Addr12) (s : State), s.sp.val < 16 → ∃ t, exec (.call nnn) s = .next t ∧
    t.stk[s.sp.val]? = some s.pc ∧ (∀ k : Fin 16, k.val ≠ s.sp.val → t.stk[k] = s.stk[k]) ∧
    t.sp.val = s.sp.val + 1 ∧ t.pc.toNat = nnn.toNat ∧ Frame s t [] [.pc, .sp, .stk] noBytes

/-- `RET` with SP ≥ 1: PC is the slot below SP, SP goes down by 1, the slot keeps its value, nothing else changes
(R110). -/
def Obligations.RetPopsTheReturnAddress : Prop :=
  ∀ s : State, 1 ≤ s.sp.val → ∃ t, exec .ret s = .next t ∧
    s.stk[s.sp.val - 1]? = some t.pc ∧ t.sp.val + 1 = s.sp.val ∧ Frame s t [] [.pc, .sp] noBytes

/-- A RET undoes a CALL (R110, R112): with SP ≤ 15, a CALL and then a RET from any state that still has the CALL's stack
come back to the address after the CALL with SP as it was. -/
def Obligations.RetReturnsToAfterTheCall : Prop :=
  ∀ (nnn : Addr12) (s t u : State), s.sp.val < 16 → exec (.call nnn) s = .next t → u.stk = t.stk → u.sp = t.sp →
    ∃ w, exec .ret u = .next w ∧ w.pc = s.pc ∧ w.sp = s.sp ∧ Frame u w [] [.pc, .sp] noBytes

/-- The four compare-skips move PC over two bytes exactly when their condition holds, and change nothing else (R113 to
R116). VF is compared like any register. -/
def Obligations.CompareSkipsMoveOverTwoBytes : Prop :=
  ∀ (x y : Reg) (kk : Byte) (s : State),
    (∃ t, exec (.seByte x kk) s = .next t ∧ t.pc = (if s.reg x = kk then s.pc + 2 else s.pc) ∧
      Frame s t [] [.pc] noBytes) ∧
    (∃ t, exec (.sneByte x kk) s = .next t ∧ t.pc = (if s.reg x = kk then s.pc else s.pc + 2) ∧
      Frame s t [] [.pc] noBytes) ∧
    (∃ t, exec (.seReg x y) s = .next t ∧ t.pc = (if s.reg x = s.reg y then s.pc + 2 else s.pc) ∧
      Frame s t [] [.pc] noBytes) ∧
    (∃ t, exec (.sneReg x y) s = .next t ∧ t.pc = (if s.reg x = s.reg y then s.pc else s.pc + 2) ∧
      Frame s t [] [.pc] noBytes)

/-- The NOP handler changes no state; the cycle around it moves PC by 2 and ticks the timers, nothing else (R96). It is
what every word that selects no row of the opcode map executes as. -/
def Obligations.UnmappedWordsDoNothing : Prop :=
  (∀ (w : Word) (s : State), exec (.nop w) s = .next s) ∧
  (∀ (w : Word) (s : State), (∀ r ∈ opcodeRows, r.selects w = false) → s.running → s.fetch = some w →
    step s = .next { s with pc := s.pc + 2, dt := tickTimer s.dt, st := tickTimer s.st })

/-! ## Loads, arithmetic, logic, shifts, index, random -/

/-- R120, whole: every word that `6xkk` matches is `LD Vx,byte` with x = op[11:8] and kk = op[7:0]; it sets V[x] to kk for
every x, VF included, and nothing else changes. -/
def Obligations.LoadByteSetsTheRegister : Prop :=
  (∀ w : Word, w &&& 0xF000 = 0x6000 → decodeWord w = .ldByte (fieldX w) (fieldKK w)) ∧
  ∀ (x : Reg) (kk : Byte) (s : State), ∃ t, exec (.ldByte x kk) s = .next t ∧
    t.reg x = kk ∧ Frame s t [x] [] noBytes

/-- `ADD Vx,byte` adds modulo 256 with no flag; with x = F the sum is VF's new value, as data (R121). -/
def Obligations.AddByteWrapsWithoutFlag : Prop :=
  ∀ (x : Reg) (kk : Byte) (s : State), ∃ t, exec (.addByte x kk) s = .next t ∧
    (t.reg x).toNat = ((s.reg x).toNat + kk.toNat) % 256 ∧ Frame s t [x] [] noBytes

/-- `LD Vx,Vy`, OR, AND and XOR write V[x] and no flag (R122 to R125). -/
def Obligations.CopyAndLogicWriteOnlyTheDestination : Prop :=
  ∀ (x y : Reg) (s : State),
    (∃ t, exec (.ldReg x y) s = .next t ∧ t.reg x = s.reg y ∧ Frame s t [x] [] noBytes) ∧
    (∃ t, exec (.orReg x y) s = .next t ∧ t.reg x = s.reg x ||| s.reg y ∧ Frame s t [x] [] noBytes) ∧
    (∃ t, exec (.andReg x y) s = .next t ∧ t.reg x = s.reg x &&& s.reg y ∧ Frame s t [x] [] noBytes) ∧
    (∃ t, exec (.xorReg x y) s = .next t ∧ t.reg x = s.reg x ^^^ s.reg y ∧ Frame s t [x] [] noBytes)

/-- R127, whole: every word that `8xy4` matches is `ADD Vx,Vy`; V[x] ends as the sum modulo 256 for every x and y, and VF
as the carry out of the old values unless x = F, where the sum overwrites the carry. -/
def Obligations.AddReportsTheCarry : Prop :=
  (∀ w : Word, w &&& 0xF00F = 0x8004 → decodeWord w = .addReg (fieldX w) (fieldY w)) ∧
  ∀ (x y : Reg) (s : State), ∃ t, exec (.addReg x y) s = .next t ∧
    (t.reg x).toNat = ((s.reg x).toNat + (s.reg y).toNat) % 256 ∧
    (x ≠ VF → t.reg VF = if 255 < (s.reg x).toNat + (s.reg y).toNat then 1 else 0) ∧
    Frame s t [x, VF] [] noBytes

/-- SUB and SUBN: the difference modulo 256 to V[x], and VF = 1 exactly when no borrow and the operands differ, unless
x = F, where the difference overwrites the flag (R128, R129). That both operands are the OLD register values when x or y
is F is the spec's decision D9 (log entry 11). -/
def Obligations.SubtractsSetTheStrictFlag : Prop :=
  ∀ (x y : Reg) (s : State),
    (∃ t, exec (.subReg x y) s = .next t ∧
      (t.reg x).toNat = (256 + (s.reg x).toNat - (s.reg y).toNat) % 256 ∧
      (x ≠ VF → t.reg VF = if (s.reg y).toNat < (s.reg x).toNat then 1 else 0) ∧ Frame s t [x, VF] [] noBytes) ∧
    (∃ t, exec (.subnReg x y) s = .next t ∧
      (t.reg x).toNat = (256 + (s.reg y).toNat - (s.reg x).toNat) % 256 ∧
      (x ≠ VF → t.reg VF = if (s.reg x).toNat < (s.reg y).toNat then 1 else 0) ∧ Frame s t [x, VF] [] noBytes)

/-- SHR and SHL shift V[x] by one, logically, and VF ends as the bit shifted out, also when x = F (R130, R131; the case
x = F is the spec's resolution C2, log entry 12). V[y] plays no part. -/
def Obligations.ShiftsMoveOneBitIntoTheFlag : Prop :=
  ∀ (x y : Reg) (s : State),
    (∃ t, exec (.shr x y) s = .next t ∧ (t.reg VF).toNat = (s.reg x).toNat % 2 ∧
      (x ≠ VF → (t.reg x).toNat = (s.reg x).toNat / 2) ∧ Frame s t [x, VF] [] noBytes) ∧
    (∃ t, exec (.shl x y) s = .next t ∧ (t.reg VF).toNat = (s.reg x).toNat / 128 ∧
      (x ≠ VF → (t.reg x).toNat = 2 * (s.reg x).toNat % 256) ∧ Frame s t [x, VF] [] noBytes)

/-- The three writes of I: `LD I,addr` gives nnn, `ADD I,Vx` the sum modulo 65536 (D11, log entry 15) and no flag,
`LD F,Vx` FONT_BASE + 5 × V[x] of the whole byte (D10, log entry 14) for every FONT_BASE of R7 (log entry 26; one beyond
R7's bound would wrap); nothing else changes (R132, R133, R146). -/
def Obligations.IndexWritesChangeOnlyI : Prop :=
  ∀ (x : Reg) (nnn : Addr12) (s : State),
    (∃ t, exec (.ldI nnn) s = .next t ∧ t.i.toNat = nnn.toNat ∧ Frame s t [] [.i] noBytes) ∧
    (∃ t, exec (.addIVx x) s = .next t ∧ t.i.toNat = (s.i.toNat + (s.reg x).toNat) % 65536 ∧
      Frame s t [] [.i] noBytes) ∧
    (∃ t, exec (.ldFVx x) s = .next t ∧ (s.font.fits → t.i.toNat = s.font.base + 5 * (s.reg x).toNat) ∧
      t.i.toNat = (s.font.base + 5 * (s.reg x).toNat) % 65536 ∧ Frame s t [] [.i] noBytes)

/-- `RND Vx,byte` sets V[x] to the next random byte and kk, consumes exactly one byte, and changes nothing else; kk = 0
gives 0 whatever the byte is (R134). The byte is a free value (D15, log entry 4): this holds for every source. -/
def Obligations.RandomByteIsMaskedAndConsumed : Prop :=
  ∀ (x : Reg) (kk : Byte) (s : State), ∃ t, exec (.rnd x kk) s = .next t ∧
    t.reg x = Config.randomByte s.draws &&& kk ∧ (kk = 0 → t.reg x = 0) ∧ t.draws = s.draws + 1 ∧
    Frame s t [x] [.draws] noBytes

/-! ## Display -/

/-- CLS turns every cell off and changes nothing else, VF included (R142). -/
def Obligations.ClsTurnsEveryCellOff : Prop :=
  ∀ s : State, ∃ t, exec .cls s = .next t ∧ (∀ py px, t.cell py px = false) ∧ Frame s t [] [.fb] noBytes

/-- The loop of DRW computes what R145 says: with the sprite's bytes all in Memory (or n = 0), every display cell ends as
its old value xor the sprite bit that covers it, clipped at the edges, and VF as 1 exactly when some cell was on under a
1 bit; nothing else changes. The origin is taken from the old V[x] and V[y], modulo 64 and 32, also when one is VF.
Clipping is D4 (log entry 13), the operands' reading D5 (log entry 11). -/
def Obligations.DrawXorsTheSpriteAndReportsCollision : Prop :=
  ∀ (x y : Reg) (n : Fin 16) (s : State), n.val = 0 ∨ s.i.toNat + n.val - 1 ≤ 4095 →
    ∃ t, exec (.drw x y n) s = .next t ∧
      (∀ py px, t.cell py px =
        Bool.xor (s.cell py px) (spriteBit s ((s.reg x).toNat % 64) ((s.reg y).toNat % 32) n.val py px)) ∧
      ((∃ py px, s.cell py px = true ∧
          spriteBit s ((s.reg x).toNat % 64) ((s.reg y).toNat % 32) n.val py px = true) → t.reg VF = 1) ∧
      ((¬ ∃ py px, s.cell py px = true ∧
          spriteBit s ((s.reg x).toNat % 64) ((s.reg y).toNat % 32) n.val py px = true) → t.reg VF = 0) ∧
      Frame s t [VF] [.fb] noBytes

/-- Drawing the same sprite twice at the same place restores the display, and the second draw reports VF = 1 exactly when
some unclipped 1 bit covered a cell that was off before the first draw (R143 (g)). -/
def Obligations.DrawingTwiceRestoresTheDisplay : Prop :=
  ∀ (x y : Reg) (n : Fin 16) (s t u : State), x ≠ VF → y ≠ VF → n.val = 0 ∨ s.i.toNat + n.val - 1 ≤ 4095 →
    exec (.drw x y n) s = .next t → exec (.drw x y n) t = .next u →
      (∀ py px, u.cell py px = s.cell py px) ∧
      (u.reg VF = 1 ↔ ∃ py px, s.cell py px = false ∧
        spriteBit s ((s.reg x).toNat % 64) ((s.reg y).toNat % 32) n.val py px = true)

/-- The host reads 2048 cells in row-major order, cell (row, column) at row × 64 + column (R32; the order is D17, log
entry 22). -/
def Obligations.DisplayIsReadRowMajor : Prop :=
  ∀ s : State, s.display.length = 2048 ∧
    ∀ (py : Fin 32) (px : Fin 64), s.display[py.val * 64 + px.val]? = some (s.cell py px)

/-! ## Keypad and timers -/

/-- SKP and SKNP with a key code k = V[x] ≤ 15 skip exactly when key k is pressed, and when it is not; nothing else
changes (R150, R151). -/
def Obligations.KeySkipsTestTheKey : Prop :=
  ∀ (x : Reg) (k : Fin 16) (s : State), (s.reg x).toNat = k.val →
    (∃ t, exec (.skp x) s = .next t ∧ t.pc = (if s.keyDown k = true then s.pc + 2 else s.pc) ∧
      Frame s t [] [.pc] noBytes) ∧
    (∃ t, exec (.sknp x) s = .next t ∧ t.pc = (if s.keyDown k = true then s.pc else s.pc + 2) ∧
      Frame s t [] [.pc] noBytes)

/-- `LD Vx,K` (R152): with a key pressed, V[x] is the lowest pressed code and nothing else changes; with none, PC goes back
by 2 and nothing else changes. -/
def Obligations.KeyWaitLoadsTheLowestKeyOrRewinds : Prop :=
  ∀ (x : Reg) (s : State),
    (∀ k : Fin 16, s.keyDown k = true → (∀ j, j < k → s.keyDown j = false) →
      ∃ t, exec (.ldVxK x) s = .next t ∧ (t.reg x).toNat = k.val ∧ Frame s t [x] [] noBytes) ∧
    ((∀ k, s.keyDown k = false) →
      ∃ t, exec (.ldVxK x) s = .next t ∧ t.pc = s.pc - 2 ∧ Frame s t [] [.pc] noBytes)

/-- The timer moves: `LD Vx,DT` copies DT, `LD DT,Vx` and `LD ST,Vx` write their timer and no other; nothing else changes
in the handler (R153 to R155). -/
def Obligations.TimerMovesCopyTheByte : Prop :=
  ∀ (x : Reg) (s : State),
    (∃ t, exec (.ldVxDt x) s = .next t ∧ t.reg x = s.dt ∧ Frame s t [x] [] noBytes) ∧
    (∃ t, exec (.ldDtVx x) s = .next t ∧ t.dt = s.reg x ∧ Frame s t [] [.dt] noBytes) ∧
    (∃ t, exec (.ldStVx x) s = .next t ∧ t.st = s.reg x ∧ Frame s t [] [.st] noBytes)

/-! ## Memory transfer -/

/-- The BCD law (R161): `LD B,Vx` writes at I, I + 1, I + 2 the unique hundreds h ≤ 2, tens t ≤ 9 and ones o ≤ 9 with
100 h + 10 t + o = V[x]; no other byte and nothing else changes. -/
def Obligations.DecimalDigitsAreStored : Prop :=
  ∀ (x : Reg) (s : State), Memory.wf s.font s.mem → s.i.toNat + 2 ≤ 4095 →
    ∃ u, exec (.ldBVx x) s = .next u ∧ Frame s u [] [] (bytesFrom s.i.toNat 3) ∧
      ∃ h t o : Nat, (u.byteAt s.i.toNat).toNat = h ∧ (u.byteAt (s.i.toNat + 1)).toNat = t ∧
        (u.byteAt (s.i.toNat + 2)).toNat = o ∧ h ≤ 2 ∧ t ≤ 9 ∧ o ≤ 9 ∧ 100 * h + 10 * t + o = (s.reg x).toNat ∧
        ∀ h' t' o' : Nat, h' ≤ 2 → t' ≤ 9 → o' ≤ 9 → 100 * h' + 10 * t' + o' = (s.reg x).toNat →
          h' = h ∧ t' = t ∧ o' = o

/-- `LD [I],Vx` stores V0 to Vx, inclusive, at I to I + x; no other byte and nothing else changes (R162). -/
def Obligations.BlockStoreWritesRegistersUpToX : Prop :=
  ∀ (x : Reg) (s : State), Memory.wf s.font s.mem → s.i.toNat + x.val ≤ 4095 →
    ∃ t, exec (.storeRegs x) s = .next t ∧ (∀ r : Reg, r ≤ x → t.byteAt (s.i.toNat + r.val) = s.reg r) ∧
      Frame s t [] [] (bytesFrom s.i.toNat (x.val + 1))

/-- `LD Vx,[I]` loads V0 to Vx, inclusive, from I to I + x; registers above x and everything else are unchanged (R163). -/
def Obligations.BlockLoadReadsRegistersUpToX : Prop :=
  ∀ (x : Reg) (s : State), s.i.toNat + x.val ≤ 4095 →
    ∃ t, exec (.loadRegs x) s = .next t ∧ (∀ r : Reg, r ≤ x → t.reg r = s.byteAt (s.i.toNat + r.val)) ∧
      (∀ r : Reg, x < r → t.reg r = s.reg r) ∧ Frame s t (blockRegs x) [] noBytes

/-- The block transfers round-trip (R162, R163): after `LD [I],Vx` from s, whatever the registers hold by then, `LD Vx,[I]`
with the same x and I gives V0 to Vx what they held in s. -/
def Obligations.BlockStoreThenLoadRoundTrips : Prop :=
  ∀ (x : Reg) (s t : State) (v : Vector Byte 16), Memory.wf s.font s.mem → s.i.toNat + x.val ≤ 4095 →
    exec (.storeRegs x) s = .next t →
    ∃ u, exec (.loadRegs x) { t with v := v } = .next u ∧ ∀ r : Reg, r ≤ x → u.reg r = s.reg r

/-- R164: none of the three memory transfers modifies I, whatever they do otherwise. -/
def Obligations.MemoryTransfersKeepI : Prop :=
  ∀ (x : Reg) (s t : State),
    exec (.ldBVx x) s = .next t ∨ exec (.storeRegs x) s = .next t ∨ exec (.loadRegs x) s = .next t → t.i = s.i

/-! ## Reset and the host's image -/

/-- What reset leaves (R39, R190, R191), for the state reset with the default parameters, with any parameters, and for the
host's reset of EVERY state s, whatever s held: a loaded image and the latch are discarded. The host's reset keeps the
parameters (log entry 26) and the count of draws, the random source not being reset (R192, log entry 4). Memory 0x00
outside the font and the display off are the source's; PC and SP the spec derives (log entry 10); V, I, DT, ST, STK and
KEY are its decision D8 (log entry 9), FAULT D12 (log entry 5), and the default FONT_BASE and FONT_DATA D2 and D3 (log
entries 1 and 2). -/
def Obligations.ResetLeavesTheListedState : Prop :=
  (HasResetValues State.reset ∧ State.reset.font.fits ∧ State.reset.font.base = 0x050) ∧
  (∀ p : FontParams, HasResetValues (State.resetWith p) ∧ (State.resetWith p).font = p) ∧
  ∀ s : State, HasResetValues s.hostReset ∧ s.hostReset.font = s.font ∧ s.hostReset.draws = s.draws

/-- The host's keypad write (R34, R100): afterwards every key is as the host gave it, and every register, every other field
and every byte is unchanged. That it is the only change of the keys, and between cycles, is log entry 18. -/
def Obligations.KeypadWriteSetsEveryKey : Prop :=
  ∀ (s : State) (keys : Vector Bool 16),
    (∀ k : Fin 16, (s.writeKeys keys).keyDown k = keys[k]) ∧ Frame s (s.writeKeys keys) [] [.key] noBytes

/-- LoadImage (R65, R173): an image of more than 3584 bytes latches ImageTooLarge and nothing else changes; any other is
copied to 0x200 onward and no other byte, register or field changes (that cells above the image keep what they held is
D18, log entry 19). -/
def Obligations.LoadImageCopiesOrRefusesWhole : Prop :=
  ∀ (s : State) (bytes : List Byte),
    (3584 < bytes.length → s.loadImage bytes = { s with fault := some .imageTooLarge }) ∧
    (bytes.length ≤ 3584 →
      Frame s (s.loadImage bytes) [] [] (bytesFrom 0x200 bytes.length) ∧
      (Memory.wf s.font s.mem → ∀ k (h : k < bytes.length), (s.loadImage bytes).byteAt (0x200 + k) = bytes[k]))
end

