-- ==== Sys2Proof/Laws/Decode.lean ====
section
/-! SUPPORT. The fields of a word, and the bytes of a word. -/

namespace Sys2Proof

/-- A word's two bytes, most significant first, give the word back. -/
@[simp] theorem wordOfBytes_highByte_lowByte (w : Word) : wordOfBytes (highByte w) (lowByte w) = w := by
  have := w.isLt
  apply BitVec.eq_of_toNat_eq
  simp only [wordOfBytes, highByte, lowByte, bits, BitVec.toNat_ofNat]
  omega

theorem wordOfBytes_toNat (hi lo : Byte) : (wordOfBytes hi lo).toNat = hi.toNat * 256 + lo.toNat := by
  have := hi.isLt
  have := lo.isLt
  simp only [wordOfBytes, BitVec.toNat_ofNat]
  omega

/-- Decoding the bytes of a word decodes the word. -/
theorem decode_wordBytes (w : Word) (rest : List Byte) : decode (wordBytes w ++ rest) = .ok (decodeWord w, rest) := by
  simp [decode, wordBytes]

/-! ### The three masks of the opcode map (R81), as fields -/

theorem and_F000_toNat (w : Word) : (w &&& 0xF000#16).toNat = w.toNat / 4096 * 4096 := by
  have e : w &&& 0xF000#16 = (w >>> 12) <<< 12 := by
    ext i hi
    simp
    interval_cases i <;> simp
  have hw := w.isLt
  rw [e]
  simp [Nat.shiftRight_eq_div_pow, Nat.shiftLeft_eq]
  omega

theorem and_low_toNat (w m : Word) (k : Nat) (hm : m.toNat = 2 ^ k - 1) : (w &&& m).toNat = w.toNat % 2 ^ k := by
  rw [BitVec.toNat_and, hm, Nat.and_two_pow_sub_one_eq_mod]

/-- A mask made of the family nibble and a low part reads as the sum of both. -/
theorem and_split_toNat (w m : Word) (hm : 0xF000#16 &&& m = 0) :
    (w &&& (0xF000#16 ||| m)).toNat = w.toNat / 4096 * 4096 + (w &&& m).toNat := by
  have e : w &&& (0xF000#16 ||| m) = (w &&& 0xF000#16) + (w &&& m) := by
    rw [BitVec.add_eq_or_of_and_eq_zero]
    · ext i hi
      simp [Bool.and_or_distrib_left]
    · have : w &&& 0xF000#16 &&& (w &&& m) = w &&& (0xF000#16 &&& m) := by
        ext i hi
        simp
        grind
      rw [this, hm]
      exact BitVec.and_zero
  have hlt : (w &&& m).toNat < 4096 := by
    have h0 : w &&& m = (w &&& m) &&& 0x0FFF#16 := by
      ext i hi
      have := congrArg (fun b : Word => b[i]) hm
      simp only [BitVec.getElem_and] at this ⊢
      interval_cases i <;> simp_all
    rw [h0, and_low_toNat _ _ 12 (by decide)]
    exact Nat.mod_lt _ (by decide)
  have hw := w.isLt
  rw [e, BitVec.toNat_add, and_F000_toNat]
  omega

theorem and_F00F_toNat (w : Word) : (w &&& 0xF00F#16).toNat = w.toNat / 4096 * 4096 + w.toNat % 16 := by
  rw [show 0xF00F#16 = 0xF000#16 ||| 0x000F#16 by decide, and_split_toNat w _ (by decide),
    and_low_toNat w _ 4 (by decide)]
  rfl

theorem and_F0FF_toNat (w : Word) : (w &&& 0xF0FF#16).toNat = w.toNat / 4096 * 4096 + w.toNat % 256 := by
  rw [show 0xF0FF#16 = 0xF000#16 ||| 0x00FF#16 by decide, and_split_toNat w _ (by decide),
    and_low_toNat w _ 8 (by decide)]
  rfl

/-! ### The encoder's words -/

theorem encodeA_toNat (f : Nat) (hf : f < 16) (nnn : Addr12) : (encodeA f nnn).toNat = f * 4096 + nnn.toNat := by
  have := nnn.isLt
  simp only [encodeA, BitVec.toNat_ofNat]
  omega

theorem encodeXK_toNat (f : Nat) (hf : f < 16) (x : Reg) (kk : Byte) :
    (encodeXK f x kk).toNat = f * 4096 + x.val * 256 + kk.toNat := by
  have := kk.isLt
  have := x.isLt
  simp only [encodeXK, BitVec.toNat_ofNat]
  omega

theorem encodeXY_toNat (f : Nat) (hf : f < 16) (x y : Reg) (n : Fin 16) :
    (encodeXY f x y n).toNat = f * 4096 + x.val * 256 + y.val * 16 + n.val := by
  have := n.isLt
  have := x.isLt
  have := y.isLt
  simp only [encodeXY, BitVec.toNat_ofNat]
  omega

end Sys2Proof
end

