-- ==== Sys2Proof/Laws/Memory.lean ====
section
/-! SUPPORT. What the Memory operations do: reads after writes, and the canonical form, which every write keeps. -/

namespace Sys2Proof.Machine

variable {p : FontParams}

theorem Memory.wf_nil : Memory.wf p ([] : Memory) := by simp [Memory.wf]

/-- The canonical form of a list with a first cell. -/
theorem Memory.wf_cons_iff (c : Host.Cell) (m : Memory) :
    Memory.wf p (c :: m : Memory) ↔
      (∀ d ∈ m, c.1 < d.1) ∧ c.1 < Config.memSize ∧ c.2 ≠ resetByte p c.1 ∧ Memory.wf p m := by
  simp only [Memory.wf, List.pairwise_cons, List.mem_cons, forall_eq_or_imp]
  tauto

@[simp] theorem Memory.read_nil (a : Nat) : Memory.read p [] a = resetByte p a := rfl

theorem Memory.read_cell (b : Nat) (w : Byte) (m : Memory) (a : Nat) :
    Memory.read p ((b, w) :: m) a = if a = b then w else Memory.read p m a := rfl

/-- An address below every listed one reads as after reset. -/
theorem Memory.read_of_lt (m : Memory) (a : Nat) (h : ∀ d ∈ m, a < d.1) : Memory.read p m a = resetByte p a := by
  induction m with
  | nil => rfl
  | cons c m ih =>
    have hc := h c (by simp)
    rw [show c = (c.1, c.2) from rfl, Memory.read_cell, if_neg (by omega)]
    exact ih fun d hd => h d (by simp [hd])

/-- Memory.cons puts one cell before cells of higher addresses. -/
theorem Memory.read_cons (a : Nat) (v : Byte) (m : Memory) (h : ∀ d ∈ m, a < d.1) (b : Nat) :
    Memory.read p (Memory.cons p a v m) b = if b = a then v else Memory.read p m b := by
  unfold Memory.cons
  by_cases hv : v = resetByte p a
  · rw [if_pos hv]
    by_cases hb : b = a
    · rw [if_pos hb, hb, Memory.read_of_lt m a h, hv]
    · rw [if_neg hb]
  · rw [if_neg hv, Memory.read_cell]

theorem Memory.mem_cons {a : Nat} {v : Byte} {m : Memory} {d : Host.Cell} (h : d ∈ Memory.cons p a v m) :
    d = (a, v) ∨ d ∈ m := by
  unfold Memory.cons at h
  split at h
  · exact .inr h
  · exact List.mem_cons.mp h

theorem Memory.wf_cons (a : Nat) (v : Byte) (m : Memory) (ha : a < Config.memSize) (h : ∀ d ∈ m, a < d.1)
    (hm : Memory.wf p m) : Memory.wf p (Memory.cons p a v m) := by
  unfold Memory.cons
  split
  · exact hm
  · rename_i hv
    exact (Memory.wf_cons_iff _ _).mpr ⟨h, ha, hv, hm⟩

/-- A cell of the result of a write is the written one or an old one. -/
theorem Memory.mem_write {m : Memory} {a : Nat} {v : Byte} {d : Host.Cell} (h : d ∈ Memory.write p m a v) :
    d = (a, v) ∨ d ∈ m := by
  induction m with
  | nil => simpa using Memory.mem_cons (m := []) h
  | cons c m ih =>
    obtain ⟨b, w⟩ := c
    unfold Memory.write at h
    split at h
    · exact Memory.mem_cons h
    · split at h
      · rcases Memory.mem_cons h with h | h
        · exact .inl h
        · exact .inr (List.mem_cons_of_mem _ h)
      · rcases List.mem_cons.mp h with h | h
        · exact .inr (by simp [h])
        · rcases ih h with h | h
          · exact .inl h
          · exact .inr (List.mem_cons_of_mem _ h)

/-- A write keeps the canonical form. -/
theorem Memory.wf_write (m : Memory) (a : Nat) (v : Byte) (ha : a < Config.memSize) (hm : Memory.wf p m) :
    Memory.wf p (Memory.write p m a v) := by
  induction m with
  | nil => exact Memory.wf_cons a v [] ha (by simp) Memory.wf_nil
  | cons c m ih =>
    obtain ⟨b, w⟩ := c
    obtain ⟨hlt, hb, hw, hm'⟩ := (Memory.wf_cons_iff _ _).mp hm
    unfold Memory.write
    split
    · rename_i hab
      refine Memory.wf_cons a v _ ha (fun d hd => ?_) hm
      rcases List.mem_cons.mp hd with h | h
      · simpa [h] using hab
      · exact hab.trans (hlt d h)
    · split
      · rename_i hab
        exact Memory.wf_cons a v m ha (fun d hd => hab ▸ hlt d hd) hm'
      · rename_i h1 h2
        refine (Memory.wf_cons_iff _ _).mpr ⟨fun d hd => ?_, hb, hw, ih hm'⟩
        rcases Memory.mem_write hd with h | h
        · subst h; show b < a; omega
        · exact hlt d h

/-- After a write the written cell reads as the value written, every other cell as before (R59). -/
theorem Memory.read_write (m : Memory) (a : Nat) (v : Byte) (hm : Memory.wf p m) (b : Nat) :
    Memory.read p (Memory.write p m a v) b = if b = a then v else Memory.read p m b := by
  induction m with
  | nil => exact Memory.read_cons a v [] (by simp) b
  | cons c m ih =>
    obtain ⟨e, w⟩ := c
    obtain ⟨hlt, -, -, hm'⟩ := (Memory.wf_cons_iff _ _).mp hm
    unfold Memory.write
    split
    · rename_i hae
      refine Memory.read_cons a v _ (fun d hd => ?_) b
      rcases List.mem_cons.mp hd with h | h
      · simpa [h] using hae
      · exact hae.trans (hlt d h)
    · split
      · rename_i hae
        rw [Memory.read_cons a v m (fun d hd => hae ▸ hlt d hd) b, Memory.read_cell]
        subst hae
        by_cases hb : b = a <;> simp [hb]
      · rename_i h1 h2
        rw [Memory.read_cell, Memory.read_cell, ih hm']
        by_cases hb : b = e
        · simp [hb, show e ≠ a by omega]
        · simp [hb]

/-- A write leaves every other cell as it was, in any memory, canonical or not. -/
theorem Memory.read_write_ne (m : Memory) (a : Nat) (v : Byte) (b : Nat) (hb : b ≠ a) :
    Memory.read p (Memory.write p m a v) b = Memory.read p m b := by
  have cons_ne (m : Memory) : Memory.read p (Memory.cons p a v m) b = Memory.read p m b := by
    unfold Memory.cons
    split
    · rfl
    · rw [Memory.read_cell, if_neg hb]
  induction m with
  | nil => exact cons_ne []
  | cons c m ih =>
    obtain ⟨e, w⟩ := c
    unfold Memory.write
    split
    · exact cons_ne _
    · split
      · rename_i hae
        rw [cons_ne, Memory.read_cell, if_neg (hae ▸ hb)]
      · rw [Memory.read_cell, Memory.read_cell, ih]

/-- Writing a byte string leaves every cell outside it as it was, in any memory. -/
theorem Memory.read_writeBytes_outside (bs : List Byte) (m : Memory) (a b : Nat)
    (hb : ¬ (a ≤ b ∧ b < a + bs.length)) :
    Memory.read p (Memory.writeBytes p m a bs) b = Memory.read p m b := by
  induction bs generalizing m a with
  | nil => rfl
  | cons v vs ih =>
    simp only [List.length_cons] at hb
    rw [Memory.writeBytes, ih _ _ (by omega), Memory.read_write_ne m a v b (by omega)]

/-- Writing a byte string inside Memory keeps the canonical form. -/
theorem Memory.wf_writeBytes (bs : List Byte) (m : Memory) (a : Nat) (ha : a + bs.length ≤ Config.memSize)
    (hm : Memory.wf p m) : Memory.wf p (Memory.writeBytes p m a bs) := by
  induction bs generalizing m a with
  | nil => exact hm
  | cons v vs ih =>
    simp only [List.length_cons] at ha
    exact ih _ _ (by omega) (Memory.wf_write m a v (by omega) hm)

/-- After writing a byte string, its bytes read back in order, every other cell as before (R55). -/
theorem Memory.read_writeBytes (bs : List Byte) (m : Memory) (a : Nat) (ha : a + bs.length ≤ Config.memSize)
    (hm : Memory.wf p m) (b : Nat) :
    Memory.read p (Memory.writeBytes p m a bs) b =
      if h : a ≤ b ∧ b < a + bs.length then bs[b - a]'(by omega) else Memory.read p m b := by
  induction bs generalizing m a with
  | nil => simp [Memory.writeBytes, show ¬ (a ≤ b ∧ b < a) by omega]
  | cons v vs ih =>
    simp only [List.length_cons] at ha
    rw [Memory.writeBytes, ih _ _ (by omega) (Memory.wf_write m a v (by omega) hm), Memory.read_write m a v hm]
    by_cases h1 : b = a
    · subst h1
      simp
    · by_cases h2 : a + 1 ≤ b ∧ b < a + 1 + vs.length
      · rw [dif_pos h2, dif_pos (by simp only [List.length_cons]; omega)]
        have : b - a = (b - (a + 1)) + 1 := by omega
        simp [this]
      · rw [dif_neg h2, if_neg h1, dif_neg (by simp only [List.length_cons]; omega)]

/-- Outside the font's 80 bytes a cell is 0x00 after reset (R191). -/
theorem resetByte_outside (hp : p.fits) (a : Nat) (ha : a < p.base ∨ p.base + 80 ≤ a) : resetByte p a = 0 := by
  obtain ⟨hlen, -⟩ := hp
  unfold resetByte
  split
  · rw [List.getD_eq_default _ _ (by omega)]
  · rfl

/-- The k-th cell from FONT_BASE is the k-th font byte after reset (R191). -/
theorem getElem_data_eq_resetByte (hp : p.fits) (k : Nat) (hk : k < 80) :
    p.data[k]? = some (resetByte p (p.base + k)) := by
  have hlen : p.data.length = 80 := hp.1
  simp [resetByte, hlen, hk]

/-- The range check of R57, as a bound. -/
theorem rangeExists_iff (base len : Nat) : rangeExists base len = true ↔ len = 0 ∨ base + len ≤ Config.memSize := by
  simp only [rangeExists, Config.memSize, Bool.or_eq_true, beq_iff_eq, decide_eq_true_eq]
  omega

end Sys2Proof.Machine
end

