-- ==== Sys2Proof/Laws/State.lean ====
section
/-! SUPPORT. One lemma per field per update of the state, each true by rfl: no later proof unfolds a record update. -/

namespace Sys2Proof.Machine

/-! ### setReg -/

@[simp] theorem State.setReg_v (s : State) (r : Reg) (b : Byte) : (s.setReg r b).v = s.v.set r.val b r.isLt := rfl
@[simp] theorem State.setReg_i (s : State) (r : Reg) (b : Byte) : (s.setReg r b).i = s.i := rfl
@[simp] theorem State.setReg_pc (s : State) (r : Reg) (b : Byte) : (s.setReg r b).pc = s.pc := rfl
@[simp] theorem State.setReg_stk (s : State) (r : Reg) (b : Byte) : (s.setReg r b).stk = s.stk := rfl
@[simp] theorem State.setReg_sp (s : State) (r : Reg) (b : Byte) : (s.setReg r b).sp = s.sp := rfl
@[simp] theorem State.setReg_dt (s : State) (r : Reg) (b : Byte) : (s.setReg r b).dt = s.dt := rfl
@[simp] theorem State.setReg_st (s : State) (r : Reg) (b : Byte) : (s.setReg r b).st = s.st := rfl
@[simp] theorem State.setReg_mem (s : State) (r : Reg) (b : Byte) : (s.setReg r b).mem = s.mem := rfl
@[simp] theorem State.setReg_fb (s : State) (r : Reg) (b : Byte) : (s.setReg r b).fb = s.fb := rfl
@[simp] theorem State.setReg_key (s : State) (r : Reg) (b : Byte) : (s.setReg r b).key = s.key := rfl
@[simp] theorem State.setReg_fault (s : State) (r : Reg) (b : Byte) : (s.setReg r b).fault = s.fault := rfl
@[simp] theorem State.setReg_draws (s : State) (r : Reg) (b : Byte) : (s.setReg r b).draws = s.draws := rfl
@[simp] theorem State.setReg_font (s : State) (r : Reg) (b : Byte) : (s.setReg r b).font = s.font := rfl
@[simp] theorem State.setReg_byteAt (s : State) (r : Reg) (b : Byte) (p : Nat) : (s.setReg r b).byteAt p = s.byteAt p := rfl
@[simp] theorem State.setReg_cell (s : State) (r : Reg) (b : Byte) (py : Fin 32) (px : Fin 64) : (s.setReg r b).cell py px = s.cell py px := rfl

/-! ### setI -/

@[simp] theorem State.setI_v (s : State) (w : Word) : (s.setI w).v = s.v := rfl
@[simp] theorem State.setI_i (s : State) (w : Word) : (s.setI w).i = w := rfl
@[simp] theorem State.setI_pc (s : State) (w : Word) : (s.setI w).pc = s.pc := rfl
@[simp] theorem State.setI_stk (s : State) (w : Word) : (s.setI w).stk = s.stk := rfl
@[simp] theorem State.setI_sp (s : State) (w : Word) : (s.setI w).sp = s.sp := rfl
@[simp] theorem State.setI_dt (s : State) (w : Word) : (s.setI w).dt = s.dt := rfl
@[simp] theorem State.setI_st (s : State) (w : Word) : (s.setI w).st = s.st := rfl
@[simp] theorem State.setI_mem (s : State) (w : Word) : (s.setI w).mem = s.mem := rfl
@[simp] theorem State.setI_fb (s : State) (w : Word) : (s.setI w).fb = s.fb := rfl
@[simp] theorem State.setI_key (s : State) (w : Word) : (s.setI w).key = s.key := rfl
@[simp] theorem State.setI_fault (s : State) (w : Word) : (s.setI w).fault = s.fault := rfl
@[simp] theorem State.setI_draws (s : State) (w : Word) : (s.setI w).draws = s.draws := rfl
@[simp] theorem State.setI_font (s : State) (w : Word) : (s.setI w).font = s.font := rfl
@[simp] theorem State.setI_reg (s : State) (w : Word) (q : Reg) : (s.setI w).reg q = s.reg q := rfl
@[simp] theorem State.setI_byteAt (s : State) (w : Word) (p : Nat) : (s.setI w).byteAt p = s.byteAt p := rfl
@[simp] theorem State.setI_cell (s : State) (w : Word) (py : Fin 32) (px : Fin 64) : (s.setI w).cell py px = s.cell py px := rfl

/-! ### setPc -/

@[simp] theorem State.setPc_v (s : State) (w : Word) : (s.setPc w).v = s.v := rfl
@[simp] theorem State.setPc_i (s : State) (w : Word) : (s.setPc w).i = s.i := rfl
@[simp] theorem State.setPc_pc (s : State) (w : Word) : (s.setPc w).pc = w := rfl
@[simp] theorem State.setPc_stk (s : State) (w : Word) : (s.setPc w).stk = s.stk := rfl
@[simp] theorem State.setPc_sp (s : State) (w : Word) : (s.setPc w).sp = s.sp := rfl
@[simp] theorem State.setPc_dt (s : State) (w : Word) : (s.setPc w).dt = s.dt := rfl
@[simp] theorem State.setPc_st (s : State) (w : Word) : (s.setPc w).st = s.st := rfl
@[simp] theorem State.setPc_mem (s : State) (w : Word) : (s.setPc w).mem = s.mem := rfl
@[simp] theorem State.setPc_fb (s : State) (w : Word) : (s.setPc w).fb = s.fb := rfl
@[simp] theorem State.setPc_key (s : State) (w : Word) : (s.setPc w).key = s.key := rfl
@[simp] theorem State.setPc_fault (s : State) (w : Word) : (s.setPc w).fault = s.fault := rfl
@[simp] theorem State.setPc_draws (s : State) (w : Word) : (s.setPc w).draws = s.draws := rfl
@[simp] theorem State.setPc_font (s : State) (w : Word) : (s.setPc w).font = s.font := rfl
@[simp] theorem State.setPc_reg (s : State) (w : Word) (q : Reg) : (s.setPc w).reg q = s.reg q := rfl
@[simp] theorem State.setPc_byteAt (s : State) (w : Word) (p : Nat) : (s.setPc w).byteAt p = s.byteAt p := rfl
@[simp] theorem State.setPc_cell (s : State) (w : Word) (py : Fin 32) (px : Fin 64) : (s.setPc w).cell py px = s.cell py px := rfl

/-! ### setDt -/

@[simp] theorem State.setDt_v (s : State) (b : Byte) : (s.setDt b).v = s.v := rfl
@[simp] theorem State.setDt_i (s : State) (b : Byte) : (s.setDt b).i = s.i := rfl
@[simp] theorem State.setDt_pc (s : State) (b : Byte) : (s.setDt b).pc = s.pc := rfl
@[simp] theorem State.setDt_stk (s : State) (b : Byte) : (s.setDt b).stk = s.stk := rfl
@[simp] theorem State.setDt_sp (s : State) (b : Byte) : (s.setDt b).sp = s.sp := rfl
@[simp] theorem State.setDt_dt (s : State) (b : Byte) : (s.setDt b).dt = b := rfl
@[simp] theorem State.setDt_st (s : State) (b : Byte) : (s.setDt b).st = s.st := rfl
@[simp] theorem State.setDt_mem (s : State) (b : Byte) : (s.setDt b).mem = s.mem := rfl
@[simp] theorem State.setDt_fb (s : State) (b : Byte) : (s.setDt b).fb = s.fb := rfl
@[simp] theorem State.setDt_key (s : State) (b : Byte) : (s.setDt b).key = s.key := rfl
@[simp] theorem State.setDt_fault (s : State) (b : Byte) : (s.setDt b).fault = s.fault := rfl
@[simp] theorem State.setDt_draws (s : State) (b : Byte) : (s.setDt b).draws = s.draws := rfl
@[simp] theorem State.setDt_font (s : State) (b : Byte) : (s.setDt b).font = s.font := rfl
@[simp] theorem State.setDt_reg (s : State) (b : Byte) (q : Reg) : (s.setDt b).reg q = s.reg q := rfl
@[simp] theorem State.setDt_byteAt (s : State) (b : Byte) (p : Nat) : (s.setDt b).byteAt p = s.byteAt p := rfl
@[simp] theorem State.setDt_cell (s : State) (b : Byte) (py : Fin 32) (px : Fin 64) : (s.setDt b).cell py px = s.cell py px := rfl

/-! ### setSt -/

@[simp] theorem State.setSt_v (s : State) (b : Byte) : (s.setSt b).v = s.v := rfl
@[simp] theorem State.setSt_i (s : State) (b : Byte) : (s.setSt b).i = s.i := rfl
@[simp] theorem State.setSt_pc (s : State) (b : Byte) : (s.setSt b).pc = s.pc := rfl
@[simp] theorem State.setSt_stk (s : State) (b : Byte) : (s.setSt b).stk = s.stk := rfl
@[simp] theorem State.setSt_sp (s : State) (b : Byte) : (s.setSt b).sp = s.sp := rfl
@[simp] theorem State.setSt_dt (s : State) (b : Byte) : (s.setSt b).dt = s.dt := rfl
@[simp] theorem State.setSt_st (s : State) (b : Byte) : (s.setSt b).st = b := rfl
@[simp] theorem State.setSt_mem (s : State) (b : Byte) : (s.setSt b).mem = s.mem := rfl
@[simp] theorem State.setSt_fb (s : State) (b : Byte) : (s.setSt b).fb = s.fb := rfl
@[simp] theorem State.setSt_key (s : State) (b : Byte) : (s.setSt b).key = s.key := rfl
@[simp] theorem State.setSt_fault (s : State) (b : Byte) : (s.setSt b).fault = s.fault := rfl
@[simp] theorem State.setSt_draws (s : State) (b : Byte) : (s.setSt b).draws = s.draws := rfl
@[simp] theorem State.setSt_font (s : State) (b : Byte) : (s.setSt b).font = s.font := rfl
@[simp] theorem State.setSt_reg (s : State) (b : Byte) (q : Reg) : (s.setSt b).reg q = s.reg q := rfl
@[simp] theorem State.setSt_byteAt (s : State) (b : Byte) (p : Nat) : (s.setSt b).byteAt p = s.byteAt p := rfl
@[simp] theorem State.setSt_cell (s : State) (b : Byte) (py : Fin 32) (px : Fin 64) : (s.setSt b).cell py px = s.cell py px := rfl

/-! ### setByte -/

@[simp] theorem State.setByte_v (s : State) (a : Nat) (b : Byte) : (s.setByte a b).v = s.v := rfl
@[simp] theorem State.setByte_i (s : State) (a : Nat) (b : Byte) : (s.setByte a b).i = s.i := rfl
@[simp] theorem State.setByte_pc (s : State) (a : Nat) (b : Byte) : (s.setByte a b).pc = s.pc := rfl
@[simp] theorem State.setByte_stk (s : State) (a : Nat) (b : Byte) : (s.setByte a b).stk = s.stk := rfl
@[simp] theorem State.setByte_sp (s : State) (a : Nat) (b : Byte) : (s.setByte a b).sp = s.sp := rfl
@[simp] theorem State.setByte_dt (s : State) (a : Nat) (b : Byte) : (s.setByte a b).dt = s.dt := rfl
@[simp] theorem State.setByte_st (s : State) (a : Nat) (b : Byte) : (s.setByte a b).st = s.st := rfl
@[simp] theorem State.setByte_mem (s : State) (a : Nat) (b : Byte) : (s.setByte a b).mem = Memory.write s.font s.mem a b := rfl
@[simp] theorem State.setByte_fb (s : State) (a : Nat) (b : Byte) : (s.setByte a b).fb = s.fb := rfl
@[simp] theorem State.setByte_key (s : State) (a : Nat) (b : Byte) : (s.setByte a b).key = s.key := rfl
@[simp] theorem State.setByte_fault (s : State) (a : Nat) (b : Byte) : (s.setByte a b).fault = s.fault := rfl
@[simp] theorem State.setByte_draws (s : State) (a : Nat) (b : Byte) : (s.setByte a b).draws = s.draws := rfl
@[simp] theorem State.setByte_font (s : State) (a : Nat) (b : Byte) : (s.setByte a b).font = s.font := rfl
@[simp] theorem State.setByte_reg (s : State) (a : Nat) (b : Byte) (q : Reg) : (s.setByte a b).reg q = s.reg q := rfl
@[simp] theorem State.setByte_cell (s : State) (a : Nat) (b : Byte) (py : Fin 32) (px : Fin 64) : (s.setByte a b).cell py px = s.cell py px := rfl

/-! ### setBytes -/

@[simp] theorem State.setBytes_v (s : State) (a : Nat) (bs : List Byte) : (s.setBytes a bs).v = s.v := rfl
@[simp] theorem State.setBytes_i (s : State) (a : Nat) (bs : List Byte) : (s.setBytes a bs).i = s.i := rfl
@[simp] theorem State.setBytes_pc (s : State) (a : Nat) (bs : List Byte) : (s.setBytes a bs).pc = s.pc := rfl
@[simp] theorem State.setBytes_stk (s : State) (a : Nat) (bs : List Byte) : (s.setBytes a bs).stk = s.stk := rfl
@[simp] theorem State.setBytes_sp (s : State) (a : Nat) (bs : List Byte) : (s.setBytes a bs).sp = s.sp := rfl
@[simp] theorem State.setBytes_dt (s : State) (a : Nat) (bs : List Byte) : (s.setBytes a bs).dt = s.dt := rfl
@[simp] theorem State.setBytes_st (s : State) (a : Nat) (bs : List Byte) : (s.setBytes a bs).st = s.st := rfl
@[simp] theorem State.setBytes_mem (s : State) (a : Nat) (bs : List Byte) : (s.setBytes a bs).mem = Memory.writeBytes s.font s.mem a bs := rfl
@[simp] theorem State.setBytes_fb (s : State) (a : Nat) (bs : List Byte) : (s.setBytes a bs).fb = s.fb := rfl
@[simp] theorem State.setBytes_key (s : State) (a : Nat) (bs : List Byte) : (s.setBytes a bs).key = s.key := rfl
@[simp] theorem State.setBytes_fault (s : State) (a : Nat) (bs : List Byte) : (s.setBytes a bs).fault = s.fault := rfl
@[simp] theorem State.setBytes_draws (s : State) (a : Nat) (bs : List Byte) : (s.setBytes a bs).draws = s.draws := rfl
@[simp] theorem State.setBytes_font (s : State) (a : Nat) (bs : List Byte) : (s.setBytes a bs).font = s.font := rfl
@[simp] theorem State.setBytes_reg (s : State) (a : Nat) (bs : List Byte) (q : Reg) : (s.setBytes a bs).reg q = s.reg q := rfl
@[simp] theorem State.setBytes_cell (s : State) (a : Nat) (bs : List Byte) (py : Fin 32) (px : Fin 64) : (s.setBytes a bs).cell py px = s.cell py px := rfl

/-! ### setFb -/

@[simp] theorem State.setFb_v (s : State) (f : Framebuffer) : (s.setFb f).v = s.v := rfl
@[simp] theorem State.setFb_i (s : State) (f : Framebuffer) : (s.setFb f).i = s.i := rfl
@[simp] theorem State.setFb_pc (s : State) (f : Framebuffer) : (s.setFb f).pc = s.pc := rfl
@[simp] theorem State.setFb_stk (s : State) (f : Framebuffer) : (s.setFb f).stk = s.stk := rfl
@[simp] theorem State.setFb_sp (s : State) (f : Framebuffer) : (s.setFb f).sp = s.sp := rfl
@[simp] theorem State.setFb_dt (s : State) (f : Framebuffer) : (s.setFb f).dt = s.dt := rfl
@[simp] theorem State.setFb_st (s : State) (f : Framebuffer) : (s.setFb f).st = s.st := rfl
@[simp] theorem State.setFb_mem (s : State) (f : Framebuffer) : (s.setFb f).mem = s.mem := rfl
@[simp] theorem State.setFb_fb (s : State) (f : Framebuffer) : (s.setFb f).fb = f := rfl
@[simp] theorem State.setFb_key (s : State) (f : Framebuffer) : (s.setFb f).key = s.key := rfl
@[simp] theorem State.setFb_fault (s : State) (f : Framebuffer) : (s.setFb f).fault = s.fault := rfl
@[simp] theorem State.setFb_draws (s : State) (f : Framebuffer) : (s.setFb f).draws = s.draws := rfl
@[simp] theorem State.setFb_font (s : State) (f : Framebuffer) : (s.setFb f).font = s.font := rfl
@[simp] theorem State.setFb_reg (s : State) (f : Framebuffer) (q : Reg) : (s.setFb f).reg q = s.reg q := rfl
@[simp] theorem State.setFb_byteAt (s : State) (f : Framebuffer) (p : Nat) : (s.setFb f).byteAt p = s.byteAt p := rfl

/-! ### countDraw -/

@[simp] theorem State.countDraw_v (s : State) : (s.countDraw).v = s.v := rfl
@[simp] theorem State.countDraw_i (s : State) : (s.countDraw).i = s.i := rfl
@[simp] theorem State.countDraw_pc (s : State) : (s.countDraw).pc = s.pc := rfl
@[simp] theorem State.countDraw_stk (s : State) : (s.countDraw).stk = s.stk := rfl
@[simp] theorem State.countDraw_sp (s : State) : (s.countDraw).sp = s.sp := rfl
@[simp] theorem State.countDraw_dt (s : State) : (s.countDraw).dt = s.dt := rfl
@[simp] theorem State.countDraw_st (s : State) : (s.countDraw).st = s.st := rfl
@[simp] theorem State.countDraw_mem (s : State) : (s.countDraw).mem = s.mem := rfl
@[simp] theorem State.countDraw_fb (s : State) : (s.countDraw).fb = s.fb := rfl
@[simp] theorem State.countDraw_key (s : State) : (s.countDraw).key = s.key := rfl
@[simp] theorem State.countDraw_fault (s : State) : (s.countDraw).fault = s.fault := rfl
@[simp] theorem State.countDraw_draws (s : State) : (s.countDraw).draws = s.draws + 1 := rfl
@[simp] theorem State.countDraw_font (s : State) : (s.countDraw).font = s.font := rfl
@[simp] theorem State.countDraw_reg (s : State) (q : Reg) : (s.countDraw).reg q = s.reg q := rfl
@[simp] theorem State.countDraw_byteAt (s : State) (p : Nat) : (s.countDraw).byteAt p = s.byteAt p := rfl
@[simp] theorem State.countDraw_cell (s : State) (py : Fin 32) (px : Fin 64) : (s.countDraw).cell py px = s.cell py px := rfl

/-! ### raise -/

@[simp] theorem State.raise_v (s : State) (f : Fault) : (s.raise f).v = s.v := rfl
@[simp] theorem State.raise_i (s : State) (f : Fault) : (s.raise f).i = s.i := rfl
@[simp] theorem State.raise_pc (s : State) (f : Fault) : (s.raise f).pc = s.pc := rfl
@[simp] theorem State.raise_stk (s : State) (f : Fault) : (s.raise f).stk = s.stk := rfl
@[simp] theorem State.raise_sp (s : State) (f : Fault) : (s.raise f).sp = s.sp := rfl
@[simp] theorem State.raise_dt (s : State) (f : Fault) : (s.raise f).dt = s.dt := rfl
@[simp] theorem State.raise_st (s : State) (f : Fault) : (s.raise f).st = s.st := rfl
@[simp] theorem State.raise_mem (s : State) (f : Fault) : (s.raise f).mem = s.mem := rfl
@[simp] theorem State.raise_fb (s : State) (f : Fault) : (s.raise f).fb = s.fb := rfl
@[simp] theorem State.raise_key (s : State) (f : Fault) : (s.raise f).key = s.key := rfl
@[simp] theorem State.raise_fault (s : State) (f : Fault) : (s.raise f).fault = some f := rfl
@[simp] theorem State.raise_draws (s : State) (f : Fault) : (s.raise f).draws = s.draws := rfl
@[simp] theorem State.raise_font (s : State) (f : Fault) : (s.raise f).font = s.font := rfl
@[simp] theorem State.raise_reg (s : State) (f : Fault) (q : Reg) : (s.raise f).reg q = s.reg q := rfl
@[simp] theorem State.raise_byteAt (s : State) (f : Fault) (p : Nat) : (s.raise f).byteAt p = s.byteAt p := rfl
@[simp] theorem State.raise_cell (s : State) (f : Fault) (py : Fin 32) (px : Fin 64) : (s.raise f).cell py px = s.cell py px := rfl

/-! ### advance -/

@[simp] theorem State.advance_v (s : State) : (s.advance).v = s.v := rfl
@[simp] theorem State.advance_i (s : State) : (s.advance).i = s.i := rfl
@[simp] theorem State.advance_pc (s : State) : (s.advance).pc = s.pc + 2 := rfl
@[simp] theorem State.advance_stk (s : State) : (s.advance).stk = s.stk := rfl
@[simp] theorem State.advance_sp (s : State) : (s.advance).sp = s.sp := rfl
@[simp] theorem State.advance_dt (s : State) : (s.advance).dt = s.dt := rfl
@[simp] theorem State.advance_st (s : State) : (s.advance).st = s.st := rfl
@[simp] theorem State.advance_mem (s : State) : (s.advance).mem = s.mem := rfl
@[simp] theorem State.advance_fb (s : State) : (s.advance).fb = s.fb := rfl
@[simp] theorem State.advance_key (s : State) : (s.advance).key = s.key := rfl
@[simp] theorem State.advance_fault (s : State) : (s.advance).fault = s.fault := rfl
@[simp] theorem State.advance_draws (s : State) : (s.advance).draws = s.draws := rfl
@[simp] theorem State.advance_font (s : State) : (s.advance).font = s.font := rfl
@[simp] theorem State.advance_reg (s : State) (q : Reg) : (s.advance).reg q = s.reg q := rfl
@[simp] theorem State.advance_byteAt (s : State) (p : Nat) : (s.advance).byteAt p = s.byteAt p := rfl
@[simp] theorem State.advance_cell (s : State) (py : Fin 32) (px : Fin 64) : (s.advance).cell py px = s.cell py px := rfl

/-! ### rewind -/

@[simp] theorem State.rewind_v (s : State) : (s.rewind).v = s.v := rfl
@[simp] theorem State.rewind_i (s : State) : (s.rewind).i = s.i := rfl
@[simp] theorem State.rewind_pc (s : State) : (s.rewind).pc = s.pc - 2 := rfl
@[simp] theorem State.rewind_stk (s : State) : (s.rewind).stk = s.stk := rfl
@[simp] theorem State.rewind_sp (s : State) : (s.rewind).sp = s.sp := rfl
@[simp] theorem State.rewind_dt (s : State) : (s.rewind).dt = s.dt := rfl
@[simp] theorem State.rewind_st (s : State) : (s.rewind).st = s.st := rfl
@[simp] theorem State.rewind_mem (s : State) : (s.rewind).mem = s.mem := rfl
@[simp] theorem State.rewind_fb (s : State) : (s.rewind).fb = s.fb := rfl
@[simp] theorem State.rewind_key (s : State) : (s.rewind).key = s.key := rfl
@[simp] theorem State.rewind_fault (s : State) : (s.rewind).fault = s.fault := rfl
@[simp] theorem State.rewind_draws (s : State) : (s.rewind).draws = s.draws := rfl
@[simp] theorem State.rewind_font (s : State) : (s.rewind).font = s.font := rfl
@[simp] theorem State.rewind_reg (s : State) (q : Reg) : (s.rewind).reg q = s.reg q := rfl
@[simp] theorem State.rewind_byteAt (s : State) (p : Nat) : (s.rewind).byteAt p = s.byteAt p := rfl
@[simp] theorem State.rewind_cell (s : State) (py : Fin 32) (px : Fin 64) : (s.rewind).cell py px = s.cell py px := rfl

/-! ### tick -/

@[simp] theorem State.tick_v (s : State) : (s.tick).v = s.v := rfl
@[simp] theorem State.tick_i (s : State) : (s.tick).i = s.i := rfl
@[simp] theorem State.tick_pc (s : State) : (s.tick).pc = s.pc := rfl
@[simp] theorem State.tick_stk (s : State) : (s.tick).stk = s.stk := rfl
@[simp] theorem State.tick_sp (s : State) : (s.tick).sp = s.sp := rfl
@[simp] theorem State.tick_dt (s : State) : (s.tick).dt = tickTimer s.dt := rfl
@[simp] theorem State.tick_st (s : State) : (s.tick).st = tickTimer s.st := rfl
@[simp] theorem State.tick_mem (s : State) : (s.tick).mem = s.mem := rfl
@[simp] theorem State.tick_fb (s : State) : (s.tick).fb = s.fb := rfl
@[simp] theorem State.tick_key (s : State) : (s.tick).key = s.key := rfl
@[simp] theorem State.tick_fault (s : State) : (s.tick).fault = s.fault := rfl
@[simp] theorem State.tick_draws (s : State) : (s.tick).draws = s.draws := rfl
@[simp] theorem State.tick_font (s : State) : (s.tick).font = s.font := rfl
@[simp] theorem State.tick_reg (s : State) (q : Reg) : (s.tick).reg q = s.reg q := rfl
@[simp] theorem State.tick_byteAt (s : State) (p : Nat) : (s.tick).byteAt p = s.byteAt p := rfl
@[simp] theorem State.tick_cell (s : State) (py : Fin 32) (px : Fin 64) : (s.tick).cell py px = s.cell py px := rfl

/-! ### writeKeys -/

@[simp] theorem State.writeKeys_v (s : State) (k : Vector Bool 16) : (s.writeKeys k).v = s.v := rfl
@[simp] theorem State.writeKeys_i (s : State) (k : Vector Bool 16) : (s.writeKeys k).i = s.i := rfl
@[simp] theorem State.writeKeys_pc (s : State) (k : Vector Bool 16) : (s.writeKeys k).pc = s.pc := rfl
@[simp] theorem State.writeKeys_stk (s : State) (k : Vector Bool 16) : (s.writeKeys k).stk = s.stk := rfl
@[simp] theorem State.writeKeys_sp (s : State) (k : Vector Bool 16) : (s.writeKeys k).sp = s.sp := rfl
@[simp] theorem State.writeKeys_dt (s : State) (k : Vector Bool 16) : (s.writeKeys k).dt = s.dt := rfl
@[simp] theorem State.writeKeys_st (s : State) (k : Vector Bool 16) : (s.writeKeys k).st = s.st := rfl
@[simp] theorem State.writeKeys_mem (s : State) (k : Vector Bool 16) : (s.writeKeys k).mem = s.mem := rfl
@[simp] theorem State.writeKeys_fb (s : State) (k : Vector Bool 16) : (s.writeKeys k).fb = s.fb := rfl
@[simp] theorem State.writeKeys_key (s : State) (k : Vector Bool 16) : (s.writeKeys k).key = k := rfl
@[simp] theorem State.writeKeys_fault (s : State) (k : Vector Bool 16) : (s.writeKeys k).fault = s.fault := rfl
@[simp] theorem State.writeKeys_draws (s : State) (k : Vector Bool 16) : (s.writeKeys k).draws = s.draws := rfl
@[simp] theorem State.writeKeys_font (s : State) (k : Vector Bool 16) : (s.writeKeys k).font = s.font := rfl
@[simp] theorem State.writeKeys_reg (s : State) (k : Vector Bool 16) (q : Reg) : (s.writeKeys k).reg q = s.reg q := rfl
@[simp] theorem State.writeKeys_byteAt (s : State) (k : Vector Bool 16) (p : Nat) : (s.writeKeys k).byteAt p = s.byteAt p := rfl
@[simp] theorem State.writeKeys_cell (s : State) (k : Vector Bool 16) (py : Fin 32) (px : Fin 64) : (s.writeKeys k).cell py px = s.cell py px := rfl

/-! ### hostReset -/

@[simp] theorem State.hostReset_v (s : State) : (s.hostReset).v = Vector.replicate 16 0 := rfl
@[simp] theorem State.hostReset_i (s : State) : (s.hostReset).i = 0 := rfl
@[simp] theorem State.hostReset_pc (s : State) : (s.hostReset).pc = 0x200 := rfl
@[simp] theorem State.hostReset_stk (s : State) : (s.hostReset).stk = Vector.replicate 16 0 := rfl
@[simp] theorem State.hostReset_sp (s : State) : (s.hostReset).sp = 0 := rfl
@[simp] theorem State.hostReset_dt (s : State) : (s.hostReset).dt = 0 := rfl
@[simp] theorem State.hostReset_st (s : State) : (s.hostReset).st = 0 := rfl
@[simp] theorem State.hostReset_mem (s : State) : (s.hostReset).mem = [] := rfl
@[simp] theorem State.hostReset_fb (s : State) : (s.hostReset).fb = Framebuffer.clear := rfl
@[simp] theorem State.hostReset_key (s : State) : (s.hostReset).key = Vector.replicate 16 false := rfl
@[simp] theorem State.hostReset_fault (s : State) : (s.hostReset).fault = none := rfl
@[simp] theorem State.hostReset_draws (s : State) : (s.hostReset).draws = s.draws := rfl
@[simp] theorem State.hostReset_font (s : State) : (s.hostReset).font = s.font := rfl

/-! ### The state after reset and its parameters -/

@[simp] theorem State.resetWith_font (p : FontParams) : (State.resetWith p).font = p := rfl
@[simp] theorem State.resetWith_mem (p : FontParams) : (State.resetWith p).mem = [] := rfl
@[simp] theorem State.resetWith_byteAt (p : FontParams) (a : Nat) : (State.resetWith p).byteAt a = resetByte p a := rfl
@[simp] theorem State.reset_font : State.reset.font = defaultFont := rfl
@[simp] theorem State.hostReset_byteAt (s : State) (a : Nat) : s.hostReset.byteAt a = resetByte s.font a := rfl

end Sys2Proof.Machine
end

