-- ==== Sys2Proof/Laws/Ops.lean ====
section
/-! SUPPORT. One lemma per shared operation, saying once everything it can do. -/

namespace Sys2Proof.Machine

/-! ### Registers -/

/-- A register write changes the written register and no other. -/
theorem State.reg_setReg (s : State) (r : Reg) (b : Byte) (q : Reg) :
    (s.setReg r b).reg q = if q = r then b else s.reg q := by
  simp only [State.reg, State.setReg, Fin.getElem_fin, Vector.getElem_set]
  by_cases h : q = r
  · simp [h]
  · rw [if_neg (fun e => h (Fin.ext e.symm)), if_neg h]

@[simp] theorem State.reg_setReg_self (s : State) (r : Reg) (b : Byte) : (s.setReg r b).reg r = b := by
  simp [State.reg_setReg]

theorem State.reg_setReg_ne (s : State) (r : Reg) (b : Byte) (q : Reg) (h : q ≠ r) :
    (s.setReg r b).reg q = s.reg q := by
  simp [State.reg_setReg, h]

/-- Flag first, result last: x holds the result, VF the flag unless x is VF, every other register is unchanged. -/
theorem State.reg_writeFlagThenResult (s : State) (x : Reg) (f r : Byte) (q : Reg) :
    (s.writeFlagThenResult x f r).reg q = if q = x then r else if q = VF then f else s.reg q := by
  simp [State.writeFlagThenResult, State.reg_setReg]

/-- Result first, flag last: VF holds the flag, x the result unless x is VF, every other register is unchanged. -/
theorem State.reg_writeResultThenFlag (s : State) (x : Reg) (f r : Byte) (q : Reg) :
    (s.writeResultThenFlag x f r).reg q = if q = VF then f else if q = x then r else s.reg q := by
  simp [State.writeResultThenFlag, State.reg_setReg]

/-! ### Skips -/

theorem State.skipIf_pc (s : State) (c : Bool) : (s.skipIf c).pc = if c then s.pc + 2 else s.pc := by
  cases c <;> rfl

/-- A skip changes PC and nothing else. -/
theorem State.skipIf_eq (s : State) (c : Bool) : s.skipIf c = { s with pc := (s.skipIf c).pc } := by
  cases c <;> rfl

/-! ### The call stack -/

/-- Push succeeds exactly when SP ≤ 15; it writes the slot at SP and SP, nothing else. -/
theorem State.push_eq_some {s t : State} {w : Word} (h : s.push w = some t) :
    ∃ hs : s.sp.val < 16,
      t = { s with stk := s.stk.set s.sp.val w hs, sp := ⟨s.sp.val + 1, by omega⟩ } := by
  unfold State.push at h
  split at h
  · rename_i hs
    exact ⟨hs, (Option.some.inj h).symm⟩
  · cases h

theorem State.push_eq_none {s : State} {w : Word} : s.push w = none ↔ s.sp.val = 16 := by
  unfold State.push
  split <;> simp <;> omega

/-- Pop succeeds exactly when SP ≥ 1; it gives the slot below SP and writes SP, nothing else. -/
theorem State.pop_eq_some {s t : State} {w : Word} (h : s.pop = some (w, t)) :
    ∃ hs : 0 < s.sp.val,
      w = s.stk[s.sp.val - 1] ∧ t = { s with sp := ⟨s.sp.val - 1, by omega⟩ } := by
  unfold State.pop at h
  split at h
  · rename_i hs
    obtain ⟨h1, h2⟩ := Prod.mk.inj (Option.some.inj h)
    exact ⟨hs, h1.symm, h2.symm⟩
  · cases h

theorem State.pop_eq_none {s : State} : s.pop = none ↔ s.sp.val = 0 := by
  unfold State.pop
  split <;> simp <;> omega

/-! ### Memory -/

/-- A byte write through the state reads back; every other byte is unchanged. -/
theorem State.byteAt_setByte (s : State) (hm : Memory.wf s.font s.mem) (a : Nat) (v : Byte) (b : Nat) :
    (s.setByte a v).byteAt b = if b = a then v else s.byteAt b :=
  Memory.read_write s.mem a v hm b

/-- A byte string written inside Memory reads back in order; every other byte is unchanged. -/
theorem State.byteAt_setBytes (s : State) (hm : Memory.wf s.font s.mem) (a : Nat) (bs : List Byte)
    (ha : a + bs.length ≤ Config.memSize) (b : Nat) :
    (s.setBytes a bs).byteAt b =
      if h : a ≤ b ∧ b < a + bs.length then bs[b - a]'(by omega) else s.byteAt b :=
  Memory.read_writeBytes bs s.mem a ha hm b

/-- Outside the written bytes nothing changes, in any memory. -/
theorem State.byteAt_setBytes_outside (s : State) (a : Nat) (bs : List Byte) (b : Nat)
    (hb : ¬ (a ≤ b ∧ b < a + bs.length)) : (s.setBytes a bs).byteAt b = s.byteAt b :=
  Memory.read_writeBytes_outside bs s.mem a b hb

/-! ### Operand forms -/

theorem addrOf_toNat (nnn : Addr12) : (addrOf nnn).toNat = nnn.toNat := by
  have := nnn.isLt
  simp [addrOf]
  omega

theorem indexedAddr_toNat (s : State) (nnn : Addr12) :
    (indexedAddr s nnn).toNat = (s.reg 0).toNat + nnn.toNat := by
  have h1 := nnn.isLt
  have h2 := (s.reg 0).isLt
  rw [indexedAddr, BitVec.toNat_ofNat]
  exact Nat.mod_eq_of_lt (by omega)

theorem indexPlus_toNat (s : State) (x : Reg) :
    (indexPlus s x).toNat = (s.i.toNat + (s.reg x).toNat) % 65536 := by
  rw [indexPlus, BitVec.toNat_ofNat]

theorem glyphAddress_toNat (p : FontParams) (d : Byte) : (glyphAddress p d).toNat = (p.base + 5 * d.toNat) % 65536 := by
  rw [glyphAddress, BitVec.toNat_ofNat]

/-- Under R7's bound the glyph address does not wrap. -/
theorem glyphAddress_toNat_of_fits (p : FontParams) (hp : p.fits) (d : Byte) :
    (glyphAddress p d).toNat = p.base + 5 * d.toNat := by
  have hb : p.base + 80 ≤ 0x200 := hp.2
  have := d.isLt
  rw [glyphAddress_toNat]
  omega

theorem mem_blockRegs (x r : Reg) : r ∈ blockRegs x ↔ r ≤ x := by
  simp [blockRegs]

/-- The registers of a block are V0, V1, … in order, x + 1 of them. -/
theorem blockRegs_length (x : Reg) : (blockRegs x).length = x.val + 1 := by
  revert x; decide

theorem blockRegs_getElem (x : Reg) (k : Nat) (h : k < (blockRegs x).length) : ((blockRegs x)[k]).val = k := by
  have : ∀ x : Reg, ∀ k : Fin 16, (h : k.val < (blockRegs x).length) → ((blockRegs x)[k.val]).val = k.val := by
    decide
  have hx := blockRegs_length x
  exact this x ⟨k, by have := x.isLt; omega⟩ h

theorem blockBytes_length (s : State) (x : Reg) : (blockBytes s x).length = x.val + 1 := by
  simp [blockBytes, blockRegs_length]

theorem keyOfCode_eq_some {b : Byte} {k : Fin 16} : keyOfCode b = some k ↔ b.toNat = k.val := by
  unfold keyOfCode
  split
  · simp [Fin.ext_iff]
  · simp only [reduceCtorEq, false_iff]
    have := k.isLt
    omega

theorem keyOfCode_eq_none {b : Byte} : keyOfCode b = none ↔ 15 < b.toNat := by
  unfold keyOfCode
  split <;> simp <;> omega

theorem codeOfKey_toNat (k : Fin 16) : (codeOfKey k).toNat = k.val := by
  have := k.isLt
  simp [codeOfKey]
  omega

/-- firstKey gives the pressed key of lowest code. -/
theorem State.firstKey_eq_some {s : State} {k : Fin 16} :
    s.firstKey = some k ↔ s.keyDown k = true ∧ ∀ j, j < k → s.keyDown j = false := by
  have gen : ∀ p : Fin 16 → Bool, (List.finRange 16).find? p = some k ↔ p k = true ∧ ∀ j, j < k → p j = false := by
    intro p
    rw [List.find?_eq_some_iff_getElem]
    constructor
    · rintro ⟨hp, i, hi, rfl, hlt⟩
      refine ⟨hp, fun j hj => ?_⟩
      have hj' : j.val < i := by simpa [Fin.lt_def] using hj
      simpa using hlt j.val hj'
    · rintro ⟨hp, hlt⟩
      refine ⟨hp, k.val, by simp, by simp, fun j hj => ?_⟩
      have hj16 : j < 16 := by have := k.isLt; omega
      simpa using hlt ⟨j, hj16⟩ hj
  exact gen _

theorem State.firstKey_eq_none {s : State} : s.firstKey = none ↔ ∀ k, s.keyDown k = false := by
  simp [State.firstKey, List.find?_eq_none]

/-- The block load sets V0 to Vx from Memory and leaves every other register as it was. -/
theorem State.loadBlock_reg (s : State) (x r : Reg) :
    (s.loadBlock x).reg r = if r ≤ x then s.byteAt (s.i.toNat + r.val) else s.reg r := by
  have gen (l : List Reg) : ∀ t : State, t.i = s.i → t.mem = s.mem → t.font = s.font →
      (l.foldl (fun t r => t.setReg r (t.byteAt (t.i.toNat + r.val))) t).reg r =
        if r ∈ l then s.byteAt (s.i.toNat + r.val) else t.reg r := by
    induction l with
    | nil => simp
    | cons q l ih =>
      intro t hi hm hf
      rw [List.foldl_cons, ih _ (by simpa using hi) (by simpa using hm) (by simpa using hf)]
      by_cases h1 : r ∈ l
      · simp [h1]
      · by_cases h2 : r = q
        · subst h2
          simp [h1, State.byteAt, hi, hm, hf]
        · simp [h1, h2, State.reg_setReg]
  rw [State.loadBlock, gen _ s rfl rfl rfl]
  simp [mem_blockRegs]

/-- The block load writes registers only. -/
theorem State.loadBlock_eq (s : State) (x : Reg) : s.loadBlock x = { s with v := (s.loadBlock x).v } := by
  have gen (l : List Reg) : ∀ t : State,
      l.foldl (fun t r => t.setReg r (t.byteAt (t.i.toNat + r.val))) t =
        { t with v := (l.foldl (fun t r => t.setReg r (t.byteAt (t.i.toNat + r.val))) t).v } := by
    induction l with
    | nil => intro t; rfl
    | cons q l ih => intro t; rw [List.foldl_cons, ih]; rfl
  exact gen _ s

/-! ### Flags and results -/

theorem flagByte_eq (c : Bool) : flagByte c = if c then 1 else 0 := rfl

theorem sumByte_toNat (a b : Byte) : (sumByte a b).toNat = (a.toNat + b.toNat) % 256 := by
  rw [sumByte, BitVec.toNat_ofNat]

theorem diffByte_toNat (a b : Byte) : (diffByte a b).toNat = (256 + a.toNat - b.toNat) % 256 := by
  have h1 := a.isLt
  have h2 := b.isLt
  rw [diffByte, BitVec.toNat_ofInt]
  omega

theorem shrByte_toNat (a : Byte) : (shrByte a).toNat = a.toNat / 2 := by
  have := a.isLt
  rw [shrByte, BitVec.toNat_ofNat]
  omega

theorem shlByte_toNat (a : Byte) : (shlByte a).toNat = 2 * a.toNat % 256 := by
  rw [shlByte, BitVec.toNat_ofNat, Nat.mul_comm]

theorem tickTimer_toNat (b : Byte) : (tickTimer b).toNat = b.toNat - 1 := by
  unfold tickTimer
  split
  · simp [*]
  · rename_i h
    have hb : b.toNat ≠ 0 := fun e => h (BitVec.eq_of_toNat_eq (by simpa using e))
    have := b.isLt
    rw [BitVec.toNat_sub]
    simp
    omega

/-! ### The cycle -/

/-- The fetch succeeds exactly when PC ≤ 4094, and gives the two bytes at PC, most significant first. -/
theorem State.fetch_eq_some {s : State} {op : Word} :
    s.fetch = some op ↔
      s.pc.toNat ≤ 4094 ∧ op = wordOfBytes (s.byteAt s.pc.toNat) (s.byteAt (s.pc.toNat + 1)) := by
  unfold State.fetch
  split <;> simp_all [eq_comm]

theorem State.fetch_eq_none {s : State} : s.fetch = none ↔ 4094 < s.pc.toNat := by
  unfold State.fetch
  split <;> simp <;> omega

theorem State.endCycle_of_running {s : State} (h : s.fault = none) : s.endCycle = s.tick := by
  simp [State.endCycle, h]

theorem State.endCycle_of_fault {s : State} {f : Fault} (h : s.fault = some f) : s.endCycle = s := by
  simp [State.endCycle, h]

@[simp] theorem State.endCycle_fault (s : State) : s.endCycle.fault = s.fault := by
  unfold State.endCycle
  split <;> rfl

end Sys2Proof.Machine
end

