-- ==== Sys2Proof/Laws/Display.lean ====
section
/-! SUPPORT. What drawing one pixel does. -/

namespace Sys2Proof.Machine

/-- Flipping a cell inverts it and no other. -/
theorem flipCell_getElem (fb : Framebuffer) (qy : Fin 32) (qx : Fin 64) (py : Fin 32) (px : Fin 64) :
    (flipCell fb qy qx)[py][px] = Bool.xor (fb[py][px]) (decide (py = qy ∧ px = qx)) := by
  by_cases h1 : py = qy
  · subst h1
    by_cases h2 : px = qx
    · subst h2
      simp [flipCell]
    · have : ¬ qx.val = px.val := fun e => h2 (Fin.ext e.symm)
      simp [flipCell, h2, this]
  · have : ¬ qy.val = py.val := fun e => h1 (Fin.ext e.symm)
    simp [flipCell, h1, this]

/-- A drawn pixel flips its own cell, if its sprite bit is 1 and it lies on the display, and no other cell. -/
theorem drawPixel_cell (xPos yPos row : Nat) (b : Byte) (c : Canvas) (col : Nat) (py : Fin 32) (px : Fin 64) :
    (drawPixel xPos yPos row b c col).fb[py][px] =
      Bool.xor (c.fb[py][px]) (b.getLsbD (7 - col) && decide (py.val = yPos + row ∧ px.val = xPos + col)) := by
  have hpy := py.isLt
  have hpx := px.isLt
  unfold drawPixel
  split
  · rename_i hb
    simp [hb]
  · rename_i hb
    split
    · simp only [flipCell_getElem, Fin.ext_iff, Bool.not_eq_false] at hb ⊢
      simp [hb]
    · have : ¬ (py.val = yPos + row ∧ px.val = xPos + col) := by omega
      simp [this]

/-- The collision note is sticky, and a pixel sets it when its sprite bit meets an on cell. -/
theorem drawPixel_hit (xPos yPos row : Nat) (b : Byte) (c : Canvas) (col : Nat) :
    (drawPixel xPos yPos row b c col).hit = true ↔
      c.hit = true ∨ (b.getLsbD (7 - col) = true ∧
        ∃ (py : Fin 32) (px : Fin 64), py.val = yPos + row ∧ px.val = xPos + col ∧ c.fb[py][px] = true) := by
  unfold drawPixel
  split
  · rename_i hb
    simp [hb]
  · rename_i hb
    have hb' : b.getLsbD (7 - col) = true := by simpa using hb
    split
    · rename_i h
      simp only [Bool.or_eq_true, hb', true_and]
      refine or_congr_right ⟨fun h' => ⟨_, _, rfl, rfl, h'⟩, ?_⟩
      rintro ⟨py, px, e1, e2, h'⟩
      have e1' : py = ⟨yPos + row, by omega⟩ := Fin.ext e1
      have e2' : px = ⟨xPos + col, by omega⟩ := Fin.ext e2
      simpa [e1', e2'] using h'
    · rename_i h
      refine ⟨.inl, ?_⟩
      rintro (h' | ⟨-, py, px, e1, e2, -⟩)
      · exact h'
      · have := py.isLt
        have := px.isLt
        omega

end Sys2Proof.Machine
end

