-- ==== Sys2Proof/Laws/Frame.lean ====
section
/-! SUPPORT. The frame of every shared operation, once. -/

namespace Sys2Proof.Machine

/-- A frame may be widened. -/
theorem Frame.mono {s t : State} {r r' : List Reg} {f f' : List Field} {b b' : Nat → Prop} (h : Frame s t r f b)
    (hr : ∀ x ∈ r, x ∈ r') (hf : ∀ x ∈ f, x ∈ f') (hb : ∀ a, b a → b' a) : Frame s t r' f' b' :=
  ⟨fun x hx => h.1 x fun e => hx (hr x e), fun x hx => h.2.1 x fun e => hx (hf x e),
    fun x hx => h.2.2 x fun e => hx (hb x e)⟩

theorem Field.same_refl (f : Field) (s : State) : Field.same f s s := by
  cases f <;> first | rfl | exact fun _ _ => rfl

/-- A state made from s by replacing fields keeps every field not replaced. -/
theorem frame_of_fields {s t : State} {fields : List Field} (hv : t.v = s.v) (hm : t.mem = s.mem)
    (hp : t.font = s.font) (hf : ∀ f, f ∉ fields → Field.same f s t) : Frame s t [] fields noBytes :=
  ⟨fun r _ => by rw [State.reg, State.reg, hv], hf, fun a _ => by rw [State.byteAt, State.byteAt, hm, hp]⟩

theorem frame_refl (s : State) : Frame s s [] [] noBytes := frame_of_fields rfl rfl rfl fun f _ => f.same_refl s

theorem frame_setReg (s : State) (x : Reg) (b : Byte) : Frame s (s.setReg x b) [x] [] noBytes :=
  ⟨fun r hr => s.reg_setReg_ne x b r (by simpa using hr), fun f _ => by
    cases f <;> first | rfl | exact fun _ _ => rfl, fun _ _ => rfl⟩

theorem frame_writeFlagThenResult (s : State) (x : Reg) (f r : Byte) :
    Frame s (s.writeFlagThenResult x f r) [x, VF] [] noBytes :=
  ⟨fun q hq => by simp at hq; simp [State.reg_writeFlagThenResult, hq], fun g _ => by
    cases g <;> first | rfl | exact fun _ _ => rfl, fun _ _ => rfl⟩

theorem frame_writeResultThenFlag (s : State) (x : Reg) (f r : Byte) :
    Frame s (s.writeResultThenFlag x f r) [x, VF] [] noBytes :=
  ⟨fun q hq => by simp at hq; simp [State.reg_writeResultThenFlag, hq], fun g _ => by
    cases g <;> first | rfl | exact fun _ _ => rfl, fun _ _ => rfl⟩

theorem frame_setPc (s : State) (w : Word) : Frame s (s.setPc w) [] [.pc] noBytes :=
  frame_of_fields rfl rfl rfl fun f hf => by cases f <;> first | rfl | exact fun _ _ => rfl | simp at hf

theorem frame_skipIf (s : State) (c : Bool) : Frame s (s.skipIf c) [] [.pc] noBytes := by
  cases c
  · exact (frame_refl s).mono (by simp) (by simp) (fun _ h => h)
  · exact frame_setPc s _

theorem frame_rewind (s : State) : Frame s s.rewind [] [.pc] noBytes := frame_setPc s _

theorem frame_setI (s : State) (w : Word) : Frame s (s.setI w) [] [.i] noBytes :=
  frame_of_fields rfl rfl rfl fun f hf => by cases f <;> first | rfl | exact fun _ _ => rfl | simp at hf

theorem frame_setDt (s : State) (b : Byte) : Frame s (s.setDt b) [] [.dt] noBytes :=
  frame_of_fields rfl rfl rfl fun f hf => by cases f <;> first | rfl | exact fun _ _ => rfl | simp at hf

theorem frame_setSt (s : State) (b : Byte) : Frame s (s.setSt b) [] [.st] noBytes :=
  frame_of_fields rfl rfl rfl fun f hf => by cases f <;> first | rfl | exact fun _ _ => rfl | simp at hf

theorem frame_setFb (s : State) (fb : Framebuffer) : Frame s (s.setFb fb) [] [.fb] noBytes :=
  frame_of_fields rfl rfl rfl fun f hf => by cases f <;> first | rfl | simp at hf

theorem frame_raise (s : State) (c : Fault) : Frame s (s.raise c) [] [.fault] noBytes :=
  frame_of_fields rfl rfl rfl fun f hf => by cases f <;> first | rfl | exact fun _ _ => rfl | simp at hf

theorem frame_setBytes (s : State) (a : Nat) (bs : List Byte) :
    Frame s (s.setBytes a bs) [] [] (bytesFrom a bs.length) :=
  ⟨fun _ _ => rfl, fun f _ => by cases f <;> first | rfl | exact fun _ _ => rfl,
    fun b hb => s.byteAt_setBytes_outside a bs b hb⟩

theorem frame_loadBlock (s : State) (x : Reg) : Frame s (s.loadBlock x) (blockRegs x) [] noBytes := by
  refine ⟨fun r hr => ?_, fun f _ => ?_, fun a _ => ?_⟩
  · rw [mem_blockRegs] at hr
    simp [State.loadBlock_reg, hr]
  · rw [State.loadBlock_eq]
    cases f <;> first | rfl | exact fun _ _ => rfl
  · rw [State.loadBlock_eq]
    rfl

theorem frame_push {s t : State} {w : Word} (h : s.push w = some t) : Frame s t [] [.stk, .sp] noBytes := by
  obtain ⟨-, rfl⟩ := State.push_eq_some h
  exact frame_of_fields rfl rfl rfl fun f hf => by cases f <;> first | rfl | exact fun _ _ => rfl | simp at hf

theorem frame_pop {s t : State} {w : Word} (h : s.pop = some (w, t)) : Frame s t [] [.sp] noBytes := by
  obtain ⟨-, -, rfl⟩ := State.pop_eq_some h
  exact frame_of_fields rfl rfl rfl fun f hf => by cases f <;> first | rfl | exact fun _ _ => rfl | simp at hf

/-- Frames compose. -/
theorem Frame.trans {s t u : State} {r r' : List Reg} {f f' : List Field} {b b' : Nat → Prop} (h : Frame s t r f b)
    (h' : Frame t u r' f' b') : Frame s u (r ++ r') (f ++ f') (fun a => b a ∨ b' a) := by
  refine ⟨fun x hx => ?_, fun g hg => ?_, fun a ha => ?_⟩
  · simp only [List.mem_append, not_or] at hx
    exact (h'.1 x hx.2).trans (h.1 x hx.1)
  · simp only [List.mem_append, not_or] at hg
    have h1 := h.2.1 g hg.1
    have h2 := h'.2.1 g hg.2
    cases g <;> first | exact h2.trans h1 | exact fun py px => (h2 py px).trans (h1 py px)
  · simp only [not_or] at ha
    exact (h'.2.2 a ha.2).trans (h.2.2 a ha.1)

end Sys2Proof.Machine
end

