-- ==== Sys2Proof/Laws/PerInstr.lean ====
section
/-! SUPPORT. Per instruction: the encoder's word of an instruction selects that instruction's own row of the opcode map
(spec/30_encoding.md R81), and a well-formed NOP's word selects no row. -/

namespace Sys2Proof.Laws.EncodeRow

/-- The mask and match R81 gives the instruction's row; none for NOP, which is no row. -/
def row : Instr → Option (Word × Word)
  | .cls => some (0xF00F, 0x0000)
  | .ret => some (0xF00F, 0x000E)
  | .jp _ => some (0xF000, 0x1000)
  | .call _ => some (0xF000, 0x2000)
  | .seByte _ _ => some (0xF000, 0x3000)
  | .sneByte _ _ => some (0xF000, 0x4000)
  | .seReg _ _ => some (0xF000, 0x5000)
  | .ldByte _ _ => some (0xF000, 0x6000)
  | .addByte _ _ => some (0xF000, 0x7000)
  | .ldReg _ _ => some (0xF00F, 0x8000)
  | .orReg _ _ => some (0xF00F, 0x8001)
  | .andReg _ _ => some (0xF00F, 0x8002)
  | .xorReg _ _ => some (0xF00F, 0x8003)
  | .addReg _ _ => some (0xF00F, 0x8004)
  | .subReg _ _ => some (0xF00F, 0x8005)
  | .shr _ _ => some (0xF00F, 0x8006)
  | .subnReg _ _ => some (0xF00F, 0x8007)
  | .shl _ _ => some (0xF00F, 0x800E)
  | .sneReg _ _ => some (0xF000, 0x9000)
  | .ldI _ => some (0xF000, 0xA000)
  | .jpV0 _ => some (0xF000, 0xB000)
  | .rnd _ _ => some (0xF000, 0xC000)
  | .drw _ _ _ => some (0xF000, 0xD000)
  | .skp _ => some (0xF00F, 0xE00E)
  | .sknp _ => some (0xF00F, 0xE001)
  | .ldVxDt _ => some (0xF0FF, 0xF007)
  | .ldVxK _ => some (0xF0FF, 0xF00A)
  | .ldDtVx _ => some (0xF0FF, 0xF015)
  | .ldStVx _ => some (0xF0FF, 0xF018)
  | .addIVx _ => some (0xF0FF, 0xF01E)
  | .ldFVx _ => some (0xF0FF, 0xF029)
  | .ldBVx _ => some (0xF0FF, 0xF033)
  | .storeRegs _ => some (0xF0FF, 0xF055)
  | .loadRegs _ => some (0xF0FF, 0xF065)
  | .nop _ => none

/-- A well-formed instruction's word carries its row's match under its row's mask; a NOP's carries no row's. -/
def Statement (i : Instr) : Prop :=
  i.wellFormed = true →
    match row i with
    | some (mask, pat) => encode i &&& mask = pat
    | none => ∀ r ∈ opcodeRows, r.selects (encode i) = false

theorem and_F000 {w p : Word} (h : w.toNat / 4096 * 4096 = p.toNat) : w &&& 0xF000#16 = p :=
  BitVec.eq_of_toNat_eq ((and_F000_toNat w).trans h)

theorem and_F00F {w p : Word} (h : w.toNat / 4096 * 4096 + w.toNat % 16 = p.toNat) : w &&& 0xF00F#16 = p :=
  BitVec.eq_of_toNat_eq ((and_F00F_toNat w).trans h)

theorem and_F0FF {w p : Word} (h : w.toNat / 4096 * 4096 + w.toNat % 256 = p.toNat) : w &&& 0xF0FF#16 = p :=
  BitVec.eq_of_toNat_eq ((and_F0FF_toNat w).trans h)

theorem cls : Statement .cls := fun _ => show encode .cls &&& 0xF00F#16 = 0x0000#16 by decide

theorem ret : Statement .ret := fun _ => show encode .ret &&& 0xF00F#16 = 0x000E#16 by decide

theorem jp (nnn : Addr12) : Statement (.jp nnn) := by
  intro _
  have := nnn.isLt
  refine and_F000 ?_
  simp only [encode, encodeA_toNat 0x1 (by decide)]
  simp
  omega

theorem call (nnn : Addr12) : Statement (.call nnn) := by
  intro _
  have := nnn.isLt
  refine and_F000 ?_
  simp only [encode, encodeA_toNat 0x2 (by decide)]
  simp
  omega

theorem seByte (x : Reg) (kk : Byte) : Statement (.seByte x kk) := by
  intro _
  have := x.isLt
  have := kk.isLt
  refine and_F000 ?_
  simp only [encode, encodeXK_toNat 0x3 (by decide)]
  simp
  omega

theorem sneByte (x : Reg) (kk : Byte) : Statement (.sneByte x kk) := by
  intro _
  have := x.isLt
  have := kk.isLt
  refine and_F000 ?_
  simp only [encode, encodeXK_toNat 0x4 (by decide)]
  simp
  omega

theorem seReg (x y : Reg) : Statement (.seReg x y) := by
  intro _
  have := x.isLt
  have := y.isLt
  refine and_F000 ?_
  simp only [encode, encodeXY_toNat 0x5 (by decide)]
  simp
  omega

theorem ldByte (x : Reg) (kk : Byte) : Statement (.ldByte x kk) := by
  intro _
  have := x.isLt
  have := kk.isLt
  refine and_F000 ?_
  simp only [encode, encodeXK_toNat 0x6 (by decide)]
  simp
  omega

theorem addByte (x : Reg) (kk : Byte) : Statement (.addByte x kk) := by
  intro _
  have := x.isLt
  have := kk.isLt
  refine and_F000 ?_
  simp only [encode, encodeXK_toNat 0x7 (by decide)]
  simp
  omega

theorem ldReg (x y : Reg) : Statement (.ldReg x y) := by
  intro _
  have := x.isLt
  have := y.isLt
  refine and_F00F ?_
  simp only [encode, encodeXY_toNat 0x8 (by decide)]
  simp
  omega

theorem orReg (x y : Reg) : Statement (.orReg x y) := by
  intro _
  have := x.isLt
  have := y.isLt
  refine and_F00F ?_
  simp only [encode, encodeXY_toNat 0x8 (by decide)]
  simp
  omega

theorem andReg (x y : Reg) : Statement (.andReg x y) := by
  intro _
  have := x.isLt
  have := y.isLt
  refine and_F00F ?_
  simp only [encode, encodeXY_toNat 0x8 (by decide)]
  simp
  omega

theorem xorReg (x y : Reg) : Statement (.xorReg x y) := by
  intro _
  have := x.isLt
  have := y.isLt
  refine and_F00F ?_
  simp only [encode, encodeXY_toNat 0x8 (by decide)]
  simp
  omega

theorem addReg (x y : Reg) : Statement (.addReg x y) := by
  intro _
  have := x.isLt
  have := y.isLt
  refine and_F00F ?_
  simp only [encode, encodeXY_toNat 0x8 (by decide)]
  simp
  omega

theorem subReg (x y : Reg) : Statement (.subReg x y) := by
  intro _
  have := x.isLt
  have := y.isLt
  refine and_F00F ?_
  simp only [encode, encodeXY_toNat 0x8 (by decide)]
  simp
  omega

theorem shr (x y : Reg) : Statement (.shr x y) := by
  intro _
  have := x.isLt
  have := y.isLt
  refine and_F00F ?_
  simp only [encode, encodeXY_toNat 0x8 (by decide)]
  simp
  omega

theorem subnReg (x y : Reg) : Statement (.subnReg x y) := by
  intro _
  have := x.isLt
  have := y.isLt
  refine and_F00F ?_
  simp only [encode, encodeXY_toNat 0x8 (by decide)]
  simp
  omega

theorem shl (x y : Reg) : Statement (.shl x y) := by
  intro _
  have := x.isLt
  have := y.isLt
  refine and_F00F ?_
  simp only [encode, encodeXY_toNat 0x8 (by decide)]
  simp
  omega

theorem sneReg (x y : Reg) : Statement (.sneReg x y) := by
  intro _
  have := x.isLt
  have := y.isLt
  refine and_F000 ?_
  simp only [encode, encodeXY_toNat 0x9 (by decide)]
  simp
  omega

theorem ldI (nnn : Addr12) : Statement (.ldI nnn) := by
  intro _
  have := nnn.isLt
  refine and_F000 ?_
  simp only [encode, encodeA_toNat 0xA (by decide)]
  simp
  omega

theorem jpV0 (nnn : Addr12) : Statement (.jpV0 nnn) := by
  intro _
  have := nnn.isLt
  refine and_F000 ?_
  simp only [encode, encodeA_toNat 0xB (by decide)]
  simp
  omega

theorem rnd (x : Reg) (kk : Byte) : Statement (.rnd x kk) := by
  intro _
  have := x.isLt
  have := kk.isLt
  refine and_F000 ?_
  simp only [encode, encodeXK_toNat 0xC (by decide)]
  simp
  omega

theorem drw (x y : Reg) (n : Fin 16) : Statement (.drw x y n) := by
  intro _
  have := x.isLt
  have := y.isLt
  have := n.isLt
  refine and_F000 ?_
  simp only [encode, encodeXY_toNat 0xD (by decide)]
  simp
  omega

theorem skp (x : Reg) : Statement (.skp x) := by
  intro _
  have := x.isLt
  refine and_F00F ?_
  simp only [encode, encodeXK_toNat 0xE (by decide)]
  simp
  omega

theorem sknp (x : Reg) : Statement (.sknp x) := by
  intro _
  have := x.isLt
  refine and_F00F ?_
  simp only [encode, encodeXK_toNat 0xE (by decide)]
  simp
  omega

theorem ldVxDt (x : Reg) : Statement (.ldVxDt x) := by
  intro _
  have := x.isLt
  refine and_F0FF ?_
  simp only [encode, encodeXK_toNat 0xF (by decide)]
  simp
  omega

theorem ldVxK (x : Reg) : Statement (.ldVxK x) := by
  intro _
  have := x.isLt
  refine and_F0FF ?_
  simp only [encode, encodeXK_toNat 0xF (by decide)]
  simp
  omega

theorem ldDtVx (x : Reg) : Statement (.ldDtVx x) := by
  intro _
  have := x.isLt
  refine and_F0FF ?_
  simp only [encode, encodeXK_toNat 0xF (by decide)]
  simp
  omega

theorem ldStVx (x : Reg) : Statement (.ldStVx x) := by
  intro _
  have := x.isLt
  refine and_F0FF ?_
  simp only [encode, encodeXK_toNat 0xF (by decide)]
  simp
  omega

theorem addIVx (x : Reg) : Statement (.addIVx x) := by
  intro _
  have := x.isLt
  refine and_F0FF ?_
  simp only [encode, encodeXK_toNat 0xF (by decide)]
  simp
  omega

theorem ldFVx (x : Reg) : Statement (.ldFVx x) := by
  intro _
  have := x.isLt
  refine and_F0FF ?_
  simp only [encode, encodeXK_toNat 0xF (by decide)]
  simp
  omega

theorem ldBVx (x : Reg) : Statement (.ldBVx x) := by
  intro _
  have := x.isLt
  refine and_F0FF ?_
  simp only [encode, encodeXK_toNat 0xF (by decide)]
  simp
  omega

theorem storeRegs (x : Reg) : Statement (.storeRegs x) := by
  intro _
  have := x.isLt
  refine and_F0FF ?_
  simp only [encode, encodeXK_toNat 0xF (by decide)]
  simp
  omega

theorem loadRegs (x : Reg) : Statement (.loadRegs x) := by
  intro _
  have := x.isLt
  refine and_F0FF ?_
  simp only [encode, encodeXK_toNat 0xF (by decide)]
  simp
  omega

theorem nop (word : Word) : Statement (.nop word) := by
  intro hw
  change ∀ r ∈ opcodeRows, r.selects (encode (.nop word)) = false
  have hu : Unmapped word := of_decide_eq_true hw
  have h0 := and_F000_toNat word
  have h1 := and_F00F_toNat word
  have h2 := and_F0FF_toNat word
  have hlt := word.isLt
  simp only [Unmapped, List.mem_cons, List.not_mem_nil, not_or, or_false] at hu
  simp only [opcodeRows, opcodeRowsLow, opcodeRowsHigh, List.cons_append, List.nil_append, List.forall_mem_cons,
    OpcodeRow.selects, beq_eq_false_iff_ne, ne_eq, BitVec.toNat_eq, encode]
  simp only [BitVec.ofNat_eq_ofNat] at h0 h1 h2 ⊢
  rw [h0, h1, h2]
  simp only [BitVec.toNat_ofNat, List.not_mem_nil, IsEmpty.forall_iff, implies_true, and_true]
  omega

end Sys2Proof.Laws.EncodeRow
end

