-- ==== Sys2Proof/Laws/Step.lean ====
section
/-! SUPPORT. What a step can do, said once: every later proof about a step cites `step_next_cases`. -/

namespace Sys2Proof.Machine

/-- A running core whose fetch succeeds runs the decoded instruction and ends the cycle. -/
theorem step_of_fetch {s : State} {op : Word} (hr : s.fault = none) (hf : s.fetch = some op) :
    step s = finishCycle (exec (decodeWord op) s.advance) := by
  simp [step, hr, hf]

theorem step_of_fetch_none {s : State} (hr : s.fault = none) (hf : s.fetch = none) :
    step s = .next (s.raise .fetchOutOfRange) := by
  simp [step, hr, hf]

theorem step_of_fault {s : State} {f : Fault} (hf : s.fault = some f) : step s = .fault f := by
  simp [step, hf]

theorem finishCycle_eq_next {r : Result} {t : State} (h : finishCycle r = .next t) :
    ∃ u, r = .next u ∧ t = u.endCycle := by
  cases r with
  | next u => exact ⟨u, rfl, by simpa [finishCycle] using h.symm⟩
  | fault f => cases h
  | refused f => cases h

/-- Everything a step that answers a next state can have done: the fetch was outside Memory and the fault was latched, or
the opcode at PC was run by exactly one handler on the advanced state, and the cycle ended. -/
theorem step_next_cases {s t : State} (h : step s = .next t) :
    s.fault = none ∧
    ((4094 < s.pc.toNat ∧ t = s.raise .fetchOutOfRange) ∨
     (∃ op u, s.fetch = some op ∧ exec (decodeWord op) s.advance = .next u ∧ t = u.endCycle)) := by
  cases hs : s.fault with
  | some f => simp [step_of_fault hs] at h
  | none =>
    refine ⟨rfl, ?_⟩
    cases hf : s.fetch with
    | none =>
      rw [step_of_fetch_none hs hf] at h
      refine .inl ⟨State.fetch_eq_none.mp hf, ?_⟩
      cases h
      rfl
    | some op =>
      rw [step_of_fetch hs hf] at h
      obtain ⟨u, hu, ht⟩ := finishCycle_eq_next h
      exact .inr ⟨op, u, rfl, hu, ht⟩

end Sys2Proof.Machine
end

