-- ==== Sys2Proof/Tests/Slice0.lean ====
section
/-! SUPPORT. The model's own tests. Every expected value is from spec/95_test_vectors.md (its vector named) or read off the
encodings of spec/30_encoding.md R81 and R72. The last part shows, for each statement with hypotheses, a state and operands
that meet them. -/

set_option maxRecDepth 20000

namespace Sys2Proof.Tests

open Sys2Proof.Machine

/-! ### WellFormed: an ill-formed term for each clause of `Unmapped` -/

theorem test_wf_family0 : (Instr.nop 0x00E0).wellFormed = false ∧ (Instr.nop 0x000E).wellFormed = false ∧
    (Instr.nop 0x0001).wellFormed = true := by decide

theorem test_wf_family8 : (Instr.nop 0x8017).wellFormed = false ∧ (Instr.nop 0x801E).wellFormed = false ∧
    (Instr.nop 0x8018).wellFormed = true ∧ (Instr.nop 0x8ABF).wellFormed = true := by decide

theorem test_wf_familyE : (Instr.nop 0xE29E).wellFormed = false ∧ (Instr.nop 0xE201).wellFormed = false ∧
    (Instr.nop 0xE29F).wellFormed = true := by decide

theorem test_wf_familyF : (Instr.nop 0xF165).wellFormed = false ∧ (Instr.nop 0xF01E).wellFormed = false ∧
    (Instr.nop 0xF00E).wellFormed = true := by decide

theorem test_wf_other_families : (Instr.nop 0x1ABC).wellFormed = false ∧ (Instr.nop 0xD12F).wellFormed = false := by
  decide

/-! ### Decode: a word of every constructor, written out from R81 -/

theorem test_decode_cls : decodeWord 0x00E0 = .cls ∧ decodeWord 0x0120 = .cls := by decide
theorem test_decode_ret : decodeWord 0x00EE = .ret ∧ decodeWord 0x0FFE = .ret := by decide
theorem test_decode_jp : decodeWord 0x1ABC = .jp 0xABC := by decide
theorem test_decode_call : decodeWord 0x2206 = .call 0x206 := by decide
theorem test_decode_seByte : decodeWord 0x31A5 = .seByte 1 0xA5 := by decide
theorem test_decode_sneByte : decodeWord 0x4308 = .sneByte 3 0x08 := by decide
theorem test_decode_seReg : decodeWord 0x5120 = .seReg 1 2 ∧ decodeWord 0x5127 = .seReg 1 2 := by decide
theorem test_decode_ldByte : decodeWord 0x6F77 = .ldByte 15 0x77 := by decide
theorem test_decode_addByte : decodeWord 0x71FF = .addByte 1 0xFF := by decide
theorem test_decode_ldReg : decodeWord 0x8130 = .ldReg 1 3 := by decide
theorem test_decode_orReg : decodeWord 0x8011 = .orReg 0 1 := by decide
theorem test_decode_andReg : decodeWord 0x8012 = .andReg 0 1 := by decide
theorem test_decode_xorReg : decodeWord 0x8553 = .xorReg 5 5 := by decide
theorem test_decode_addReg : decodeWord 0x8234 = .addReg 2 3 := by decide
theorem test_decode_subReg : decodeWord 0x80F5 = .subReg 0 15 := by decide
theorem test_decode_shr : decodeWord 0x8AB6 = .shr 10 11 := by decide
theorem test_decode_subnReg : decodeWord 0x8127 = .subnReg 1 2 := by decide
theorem test_decode_shl : decodeWord 0x8ABE = .shl 10 11 := by decide
theorem test_decode_sneReg : decodeWord 0x9AB5 = .sneReg 10 11 := by decide
theorem test_decode_ldI : decodeWord 0xA300 = .ldI 0x300 := by decide
theorem test_decode_jpV0 : decodeWord 0xBFFF = .jpV0 0xFFF := by decide
theorem test_decode_rnd : decodeWord 0xC30F = .rnd 3 0x0F := by decide
theorem test_decode_drw : decodeWord 0xD12F = .drw 1 2 15 := by decide
theorem test_decode_skp : decodeWord 0xE29E = .skp 2 ∧ decodeWord 0xE20E = .skp 2 := by decide
theorem test_decode_sknp : decodeWord 0xE2A1 = .sknp 2 ∧ decodeWord 0xE201 = .sknp 2 := by decide
theorem test_decode_ldVxDt : decodeWord 0xFB07 = .ldVxDt 11 := by decide
theorem test_decode_ldVxK : decodeWord 0xF00A = .ldVxK 0 := by decide
theorem test_decode_ldDtVx : decodeWord 0xFA15 = .ldDtVx 10 := by decide
theorem test_decode_ldStVx : decodeWord 0xF118 = .ldStVx 1 := by decide
theorem test_decode_addIVx : decodeWord 0xF21E = .addIVx 2 := by decide
theorem test_decode_ldFVx : decodeWord 0xF129 = .ldFVx 1 := by decide
theorem test_decode_ldBVx : decodeWord 0xF033 = .ldBVx 0 := by decide
theorem test_decode_storeRegs : decodeWord 0xF255 = .storeRegs 2 := by decide
theorem test_decode_loadRegs : decodeWord 0xF165 = .loadRegs 1 := by decide
theorem test_decode_nop : decodeWord 0x0ABC = .nop 0x0ABC ∧ decodeWord 0x8ABF = .nop 0x8ABF ∧
    decodeWord 0xE29F = .nop 0xE29F ∧ decodeWord 0xF175 = .nop 0xF175 := by decide

/-- The document's bytes 60 0A are LD V0,10 (S9), and one byte alone holds no instruction. -/
theorem test_decode_bytes : (decode [0x60, 0x0A, 0x61]).toOption = some (.ldByte 0 10, [0x61]) ∧
    (decode [0x60]).toOption = none := by decide

theorem test_decodeTableWord : decodeTableWord 16 0xF155 = some (.storeRegs 1) ∧
    decodeTableWord 16 0xD12F = some (.drw 1 2 15) := by decide

theorem test_encode : encode (.storeRegs 1) = 0xF155 ∧ encode (.skp 2) = 0xE29E ∧ encode .ret = 0x00EE ∧
    encode (.drw 1 2 15) = 0xD12F := by decide

/-! ### One step -/

/-- The reset state with some registers set. -/
def regs (rs : List (Reg × Byte)) : State := rs.foldl (fun s p => s.setReg p.1 p.2) State.reset

/-- Whether a step from s, with the word w at PC, answers a next state that p accepts. -/
def runs (s : State) (w : Word) (p : State → Bool) : Bool :=
  match step (s.placeWord w) with
  | .next t => p t
  | _ => false

/-- The coordinates (row, column) of the cells that are on. -/
def onCells (s : State) : List (Nat × Nat) :=
  (List.finRange 32).flatMap fun py =>
    ((List.finRange 64).filter fun px => s.cell py px).map fun px => (py.val, px.val)

/-- The named cells switched on. -/
def cells (s : State) (l : List (Fin 32 × Fin 64)) : State :=
  s.setFb (l.foldl (fun fb p => flipCell fb p.1 p.2) Framebuffer.clear)

/-- The named keys pressed. -/
def keys (s : State) (l : List (Fin 16)) : State := s.writeKeys (Vector.ofFn fun k => decide (k ∈ l))

/-- V-DSP-1. -/
theorem test_cls : runs (cells State.reset [(0, 0), (31, 63), (5, 5)]) 0x00E0 (fun t => onCells t == []) = true := by
  decide

/-- V-CF-6. -/
theorem test_ret : runs ((State.reset.setPc 0x202).push 0x202 |>.getD State.reset |>.setPc 0x20C) 0x00EE
    (fun t => t.pc == 0x202 && t.sp == 0 && t.stk[0] == 0x202) = true := by decide

/-- V-CF-5. -/
theorem test_ret_underflow : runs (State.reset.setDt 5) 0x00EE
    (fun t => t.fault == some .stackUnderflow && t.pc == 0x202 && t.dt == 5) = true := by decide

/-- V-CF-2. -/
theorem test_jp_odd : runs State.reset 0x1301 (fun t => t.pc == 0x301) = true := by decide

/-- V-CF-3. -/
theorem test_call : runs State.reset 0x2206 (fun t => t.stk[0] == 0x202 && t.sp == 1 && t.pc == 0x206) = true := by
  decide

/-- V-CF-4. -/
theorem test_call_overflow : runs { State.reset with sp := 16, dt := 5 } 0x2300
    (fun t => t.fault == some .stackOverflow && t.pc == 0x202 && t.sp == 16 && t.dt == 5) = true := by decide

/-- V-CF-19: VF is compared like any register. -/
theorem test_seByte_vf : runs (regs [(15, 1)]) 0x3F01 (fun t => t.pc == 0x204) = true := by decide

/-- V-CF-9. -/
theorem test_seByte_not_taken : runs ((regs [(1, 4)]).setPc 0x208) 0x3100 (fun t => t.pc == 0x20A) = true := by decide

/-- V-CF-10. -/
theorem test_sneByte : runs (regs [(3, 7)]) 0x4308 (fun t => t.pc == 0x204) = true := by decide

/-- V-CF-11. -/
theorem test_sneByte_not_taken : runs (regs [(3, 8)]) 0x4308 (fun t => t.pc == 0x202) = true := by decide

/-- V-CF-12. -/
theorem test_seReg : runs (regs [(1, 9), (2, 9)]) 0x5120 (fun t => t.pc == 0x204) = true := by decide

/-- V-CF-13. -/
theorem test_seReg_not_taken : runs (regs [(1, 9), (2, 8)]) 0x5127 (fun t => t.pc == 0x202) = true := by decide

/-- V-CF-15. -/
theorem test_sneReg : runs (regs [(1, 9), (2, 8)]) 0x9120 (fun t => t.pc == 0x204) = true := by decide

/-- V-CF-18. -/
theorem test_jpV0_not_masked : runs (regs [(0, 0xFF)]) 0xBFFF (fun t => t.pc == 0x10FE) = true := by decide

/-- V-CF-17. -/
theorem test_jpV0 : runs (regs [(0, 0x04)]) 0xB300 (fun t => t.pc == 0x304) = true := by decide

/-- V-ALU-39. -/
theorem test_ldByte_vf : runs State.reset 0x6F77 (fun t => t.reg VF == 0x77) = true := by decide

/-- V-ALU-2. -/
theorem test_addByte : runs (regs [(1, 5), (15, 9)]) 0x71FF (fun t => t.reg 1 == 4 && t.reg VF == 9) = true := by decide

/-- V-ALU-4. -/
theorem test_ldReg : runs (regs [(3, 0x2A)]) 0x8130 (fun t => t.reg 1 == 0x2A) = true := by decide

/-- V-ALU-5. -/
theorem test_orReg : runs (regs [(0, 0xF0), (1, 0x0F), (15, 1)]) 0x8011
    (fun t => t.reg 0 == 0xFF && t.reg VF == 1) = true := by decide

/-- V-ALU-6. -/
theorem test_andReg : runs (regs [(0, 0xF3), (1, 0x3C)]) 0x8012 (fun t => t.reg 0 == 0x30) = true := by decide

/-- V-ALU-7. -/
theorem test_xorReg : runs (regs [(0, 0xFF), (1, 0x0F)]) 0x8013 (fun t => t.reg 0 == 0xF0) = true := by decide

/-- V-ALU-9. -/
theorem test_addReg_carry : runs (regs [(2, 200), (3, 100)]) 0x8234 (fun t => t.reg 2 == 44 && t.reg VF == 1) = true := by
  decide

/-- V-ALU-11: the sum overwrites the carry. -/
theorem test_addReg_vf : runs (regs [(15, 200), (1, 100)]) 0x8F14 (fun t => t.reg VF == 0x2C) = true := by decide

/-- V-ALU-15: equal operands give no flag. -/
theorem test_subReg_equal : runs (regs [(0, 7), (1, 7), (15, 1)]) 0x8015
    (fun t => t.reg 0 == 0 && t.reg VF == 0) = true := by decide

/-- V-ALU-27: the subtrahend is the old VF. -/
theorem test_subReg_vf : runs (regs [(0, 10), (15, 3)]) 0x80F5 (fun t => t.reg 0 == 7 && t.reg VF == 1) = true := by decide

/-- V-ALU-18: the flag is the bit before the shift and is written last. -/
theorem test_shr_vf : runs (regs [(15, 0xFE)]) 0x8F06 (fun t => t.reg VF == 0x00) = true := by decide

/-- V-ALU-40: Vy is not used. -/
theorem test_shr_y : runs (regs [(2, 4), (3, 0xFF), (15, 1)]) 0x8236
    (fun t => t.reg 2 == 2 && t.reg 3 == 0xFF && t.reg VF == 0) = true := by decide

/-- V-ALU-24. -/
theorem test_subnReg_borrow : runs (regs [(0, 10), (1, 5), (15, 1)]) 0x8017
    (fun t => t.reg 0 == 251 && t.reg VF == 0) = true := by decide

/-- V-ALU-28. -/
theorem test_subnReg_vf : runs (regs [(15, 3), (1, 10)]) 0x8F17 (fun t => t.reg VF == 7) = true := by decide

/-- V-ALU-19. -/
theorem test_shl : runs (regs [(2, 0x81)]) 0x820E (fun t => t.reg 2 == 0x02 && t.reg VF == 1) = true := by decide

/-- V-ALU-22. -/
theorem test_shl_vf : runs (regs [(15, 0x03)]) 0x8F0E (fun t => t.reg VF == 0x00) = true := by decide

/-- V-ALU-34. -/
theorem test_ldI : runs State.reset 0xA300 (fun t => t.i == 0x300) = true := by decide

/-- V-ALU-36. -/
theorem test_addIVx : runs ((regs [(0, 1), (15, 7)]).setI 0x0FFF) 0xF01E
    (fun t => t.i == 0x1000 && t.reg VF == 7) = true := by decide

/-- V-ALU-38: one byte consumed. -/
theorem test_rnd_draws : runs State.reset 0xC300 (fun t => t.draws == 1 && t.pc == 0x202) = true := by decide

/-- V-ALU-38: the mask 0 gives 0 whatever the byte is. -/
theorem test_rnd_zero : ∃ t, exec (.rnd 3 0) State.reset = .next t ∧ t.reg 3 = 0 :=
  ⟨_, rfl, show (State.reset.setReg 3 (State.reset.randomByte &&& 0)).reg 3 = 0 by simp⟩

/-- V-DSP-8. -/
theorem test_drw_collision :
    runs (((cells State.reset [(0, 3), (0, 4)]).setI 0x300).setByte 0x300 0xF0) 0xD011
      (fun t => onCells t == [(0, 0), (0, 1), (0, 2), (0, 4)] && t.reg VF == 1) = true := by decide

/-- V-DSP-5: columns past the edge are dropped. -/
theorem test_drw_clip : runs (((regs [(0, 60)]).setI 0x300).setByte 0x300 0xFF) 0xD011
    (fun t => onCells t == [(0, 60), (0, 61), (0, 62), (0, 63)] && t.reg VF == 0) = true := by decide

/-- V-DSP-17. -/
theorem test_ldFVx : runs (regs [(1, 0x0A)]) 0xF129 (fun t => t.i == 0x082) = true := by decide

/-- V-DSP-19: not masked to a digit. -/
theorem test_ldFVx_not_masked : runs (regs [(0, 0xFF)]) 0xF029 (fun t => t.i == 0x54B) = true := by decide

/-- V-KEY-1. -/
theorem test_skp : runs ((keys (regs [(2, 9)]) [9]).setPc 0x220) 0xE29E (fun t => t.pc == 0x224) = true := by decide

/-- V-KEY-5. -/
theorem test_skp_fault : runs (regs [(0, 16)]) 0xE09E
    (fun t => t.fault == some .keyIndexOutOfRange && t.pc == 0x202) = true := by decide

/-- V-KEY-3. -/
theorem test_sknp : runs ((regs [(2, 9)]).setPc 0x220) 0xE2A1 (fun t => t.pc == 0x224) = true := by decide

/-- V-KEY-4. -/
theorem test_sknp_not_taken : runs ((keys (regs [(2, 9)]) [9]).setPc 0x220) 0xE2A1
    (fun t => t.pc == 0x222) = true := by decide

/-- V-KEY-7: a waiting cycle rewinds PC and still ticks. -/
theorem test_ldVxK_waits : runs { regs [(0, 0x55)] with dt := 3, st := 1 } 0xF00A
    (fun t => t.reg 0 == 0x55 && t.pc == 0x200 && t.dt == 2 && t.st == 0) = true := by decide

/-- V-KEY-9: the lowest pressed code. -/
theorem test_ldVxK_lowest : runs (keys (regs [(0, 0x55)]) [12, 9]) 0xF00A
    (fun t => t.reg 0 == 9 && t.pc == 0x202) = true := by decide

/-- V-KEY-11. -/
theorem test_ldVxDt : runs (State.reset.setDt 2) 0xFB07 (fun t => t.reg 11 == 2 && t.dt == 1) = true := by decide

/-- V-KEY-12: written, then ticked. -/
theorem test_ldDtVx : runs (regs [(10, 3)]) 0xFA15 (fun t => t.dt == 2) = true := by decide

/-- V-KEY-14. -/
theorem test_ldStVx : runs (regs [(1, 1)]) 0xF118 (fun t => t.st == 0) = true := by decide

/-- V-MEM-1 (the document's S5). -/
theorem test_ldBVx : runs ((regs [(0, 234)]).setI 0x300) 0xF033
    (fun t => t.byteAt 0x300 == 2 && t.byteAt 0x301 == 3 && t.byteAt 0x302 == 4) = true := by decide

/-- V-MEM-7: nothing is written. -/
theorem test_ldBVx_range : runs { (regs [(0, 255)]).setI 0xFFE with dt := 4 } 0xF033
    (fun t => t.fault == some .memOutOfRange && t.byteAt 0xFFE == 0 && t.pc == 0x202 && t.dt == 4) = true := by decide

/-- V-MEM-8. -/
theorem test_storeRegs : runs ((regs [(0, 0x11), (1, 0x22), (2, 0x33), (3, 0x44)]).setI 0x400) 0xF255
    (fun t => t.byteAt 0x402 == 0x33 && t.byteAt 0x403 == 0 && t.i == 0x400) = true := by decide

/-- V-MEM-16: the font's bytes may be overwritten. -/
theorem test_storeRegs_font : runs ((regs [(0, 0xFF)]).setI 0x050) 0xF055
    (fun t => t.byteAt 0x050 == 0xFF && t.byteAt 0x051 == 0x90 && t.fault == none) = true := by decide

/-- V-MEM-10. -/
theorem test_loadRegs : runs (((regs [(3, 0x99)]).setI 0x300).setBytes 0x300 [2, 3, 4]) 0xF265
    (fun t => t.reg 0 == 2 && t.reg 2 == 4 && t.reg 3 == 0x99) = true := by decide

/-- V-MEM-13. -/
theorem test_loadRegs_range : runs ((regs [(0, 9)]).setI 0x1000) 0xF065
    (fun t => t.fault == some .memOutOfRange && t.reg 0 == 9) = true := by decide

/-- V-CYC-1. -/
theorem test_nop : runs (State.reset.setDt 7) 0x8018 (fun t => t.dt == 6 && t.pc == 0x202) = true := by decide

/-- V-CYC-3: a timer at 0 stays at 0. -/
theorem test_tick_clamped : runs (State.reset.setSt 200) 0x8008 (fun t => t.st == 199 && t.dt == 0) = true := by decide

/-- V-CYC-6. -/
theorem test_fetch_fault : runs { State.reset with pc := 0x1000, dt := 5 } 0x0000
    (fun t => t.fault == some .fetchOutOfRange && t.pc == 0x1000 && t.dt == 5) = true := by decide

/-- V-FLT-5, and R52: the font is at 0x050 after reset (default of D2, D3). -/
theorem test_reset_memory : (State.reset.loadImage []) = State.reset ∧ State.reset.byteAt 0x050 = 0xF0 ∧
    State.reset.byteAt 0x09F = 0x80 ∧ State.reset.byteAt 0x0A0 = 0 ∧ State.reset.byteAt 0xFFF = 0 := by decide

/-- The host's question: the word stored where step fetches runs as the first instruction after reset. -/
theorem test_withFetchWord : (match step (State.reset.withFetchWord 16 0x600A) with
    | .next t => t.reg 0 == 10 && t.pc == 0x202
    | _ => false) = true := by decide

/-- Writing an unlisted cell's own value lists nothing. -/
theorem test_memory_canonical : Memory.write defaultFont (Memory.write defaultFont [] 0x300 7) 0x300 0 = [] ∧
    Memory.write defaultFont [] 0x050 0xF0 = [] ∧
    Memory.write defaultFont [(0x301, 9)] 0x300 7 = [(0x300, 7), (0x301, 9)] := by decide

/-- R7, R191: a machine with another FONT_BASE and FONT_DATA (glyph A is five bytes 3C from 0x132) runs with them:
V-DSP-17 becomes I = 0x100 + 50, and its bytes lie there after reset and nothing at 0x050. -/
def otherFont : FontParams := { base := 0x100, data := List.replicate 80 0x3C }

theorem test_other_font : otherFont.fits ∧ (State.resetWith otherFont).byteAt 0x132 = 0x3C ∧
    (State.resetWith otherFont).byteAt 0x050 = 0 ∧ (State.resetWith otherFont).byteAt 0x150 = 0 ∧
    runs ((State.resetWith otherFont).setReg 1 0x0A) 0xF129 (fun t => t.i == 0x132) = true := by decide

/-! ### Witnesses: for each statement with hypotheses, a state and operands that meet all of them -/

/-- Reset with the word w at PC. -/
abbrev ready (w : Word) : State := State.reset.placeWord w

theorem fetches_of {s : State} {i : Instr} (h : s.fault = none ∧ s.pc.toNat ≤ 4094 ∧
    decodeWord (wordOfBytes (s.byteAt s.pc.toNat) (s.byteAt (s.pc.toNat + 1))) = i) : Fetches s i :=
  ⟨h.1, h.2.1, by rw [← h.2.2]; rfl⟩

theorem next_of {s : State} {w : Word} {p : State → Bool} (h : runs s w p = true) :
    ∃ t, step (s.placeWord w) = .next t ∧ p t = true := by
  unfold runs at h
  cases e : step (s.placeWord w) with
  | next t => exact ⟨t, rfl, by simpa [e] using h⟩
  | fault f => simp [e] at h
  | refused r => simp [e] at h

theorem witness_EncodedInstructionsDecodeBack :
    (Instr.nop 0xE29F).wellFormed = true ∧ (Instr.drw 15 15 15).wellFormed = true := by decide

theorem witness_UnmappedWordsAreExactlyTheNops : Unmapped 0xF00E ∧ decodeWord 0xF00E = .nop 0xF00E := by decide

/-- One pair of different words for each clause. -/
theorem witness_IgnoredBitsChangeNothing :
    (bits 0x0FF0 15 12 = bits 0x0000 15 12 ∧ bits 0x0FF0 3 0 = bits 0x0000 3 0 ∧ bits 0x0FF0 15 12 = 0x0 ∧
      bits 0x0FF0 3 0 = 0x0) ∧
    (bits 0xE29E 15 12 = bits 0xE20E 15 12 ∧ bits 0xE29E 3 0 = bits 0xE20E 3 0 ∧ bits 0xE29E 15 12 = 0xE ∧
      bits 0xE29E 11 8 = bits 0xE20E 11 8 ∧ bits 0xE29E 3 0 = 0xE) ∧
    (bits 0x512F 15 4 = bits 0x5120 15 4 ∧ bits 0x512F 15 12 = 0x5) ∧
    (bits 0x9AB5 15 4 = bits 0x9AB0 15 4 ∧ bits 0x9AB5 15 12 = 0x9) := by decide

/-- The last PC a fetch succeeds at. -/
theorem witness_FetchIsBigEndian :
    ({ State.reset with pc := 4094 } : State).running ∧ ({ State.reset with pc := 4094 } : State).pc.toNat ≤ 4094 := by
  decide

/-- A step whose handler raises no fault, and one whose handler raises one. -/
theorem witness_StepRunsTheDecodedInstruction :
    (Fetches (ready 0x600A) (.ldByte 0 10) ∧
      ∃ t, exec (.ldByte 0 10) { ready 0x600A with pc := (ready 0x600A).pc + 2 } = .next t ∧ t.fault = none) ∧
    (Fetches (ready 0x00EE) .ret ∧
      ∃ t, exec .ret { ready 0x00EE with pc := (ready 0x00EE).pc + 2 } = .next t ∧ t.fault ≠ none) :=
  ⟨⟨fetches_of (by decide), _, rfl, rfl⟩, fetches_of (by decide), _, rfl, by decide⟩

/-- The cycle at s with the word w at PC runs i and raises no fault. -/
abbrev RunsClean (s : State) (w : Word) (i : Instr) : Prop :=
  Fetches (s.placeWord w) i ∧ ∃ t, step (s.placeWord w) = .next t ∧ (t.fault == none) = true

/-- One cycle for each clause: the three jumps, CALL, RET, each skip, a key wait, and NOP at the last fetchable address. -/
theorem witness_PcIsAdvancedBeforeTheHandler :
    RunsClean State.reset 0x1301 (.jp 0x301) ∧ RunsClean State.reset 0x2206 (.call 0x206) ∧
    RunsClean (regs [(0, 0xFF)]) 0xBFFF (.jpV0 0xFFF) ∧ RunsClean { State.reset with sp := 1 } 0x00EE .ret ∧
    RunsClean State.reset 0x3000 (.seByte 0 0) ∧ RunsClean State.reset 0x4000 (.sneByte 0 0) ∧
    RunsClean State.reset 0x5010 (.seReg 0 1) ∧ RunsClean (regs [(1, 9)]) 0x9010 (.sneReg 0 1) ∧
    RunsClean (keys State.reset [0]) 0xE09E (.skp 0) ∧ RunsClean State.reset 0xE0A1 (.sknp 0) ∧
    RunsClean State.reset 0xF00A (.ldVxK 0) ∧ RunsClean { State.reset with pc := 4094 } 0x8018 (.nop 0x8018) :=
  ⟨⟨fetches_of (by decide), next_of (by decide)⟩, ⟨fetches_of (by decide), next_of (by decide)⟩,
    ⟨fetches_of (by decide), next_of (by decide)⟩, ⟨fetches_of (by decide), next_of (by decide)⟩,
    ⟨fetches_of (by decide), next_of (by decide)⟩, ⟨fetches_of (by decide), next_of (by decide)⟩,
    ⟨fetches_of (by decide), next_of (by decide)⟩, ⟨fetches_of (by decide), next_of (by decide)⟩,
    ⟨fetches_of (by decide), next_of (by decide)⟩, ⟨fetches_of (by decide), next_of (by decide)⟩,
    ⟨fetches_of (by decide), next_of (by decide)⟩, fetches_of (by decide), next_of (by decide)⟩

/-- A timer write of 0 and of 255, and an instruction that writes no timer, with DT at 0 and at 255. -/
theorem witness_TimersTickOncePerCycle :
    RunsClean State.reset 0xF015 (.ldDtVx 0) ∧ RunsClean (regs [(1, 255)]) 0xF118 (.ldStVx 1) ∧
    RunsClean (State.reset.setDt 255) 0x600A (.ldByte 0 10) :=
  ⟨⟨fetches_of (by decide), next_of (by decide)⟩, ⟨fetches_of (by decide), next_of (by decide)⟩,
    fetches_of (by decide), next_of (by decide)⟩

theorem witness_RunningCoreAlwaysSteps : State.reset.running := rfl

/-- The first PC a fetch fails at. -/
theorem witness_FetchOutsideMemoryFaults : ({ State.reset with pc := 4095 } : State).running ∧
    4094 < ({ State.reset with pc := 4095 } : State).pc.toNat := by decide

theorem witness_HaltedCoreStaysHalted : (State.reset.raise .stackOverflow).fault = some .stackOverflow := rfl

/-- A fetch fault and a handler's fault. -/
theorem witness_FaultsArePrecise :
    (({ State.reset with pc := 4095 } : State).running ∧ ∃ t, step { State.reset with pc := 4095 } = .next t ∧
      t.fault = some .fetchOutOfRange) ∧
    ((ready 0x00EE).running ∧ ∃ t, step (ready 0x00EE) = .next t ∧ (t.fault == some .stackUnderflow) = true) :=
  ⟨⟨rfl, _, rfl, rfl⟩, by decide, next_of (by decide)⟩

/-- A cycle for each cause, at the first operand that raises it. -/
theorem witness_EachFaultHasItsOwnCause :
    (({ State.reset with pc := 4095 } : State).running ∧ ∃ t, step { State.reset with pc := 4095 } = .next t ∧
      t.fault = some .fetchOutOfRange) ∧
    (Fetches ({ State.reset with sp := 16 }.placeWord 0x2300) (.call 0x300) ∧
      ∃ t, step ({ State.reset with sp := 16 }.placeWord 0x2300) = .next t ∧ (t.fault == some .stackOverflow) = true) ∧
    (Fetches (ready 0x00EE) .ret ∧ ∃ t, step (ready 0x00EE) = .next t ∧ (t.fault == some .stackUnderflow) = true) ∧
    (Fetches ((regs [(0, 16)]).placeWord 0xE09E) (.skp 0) ∧
      ∃ t, step ((regs [(0, 16)]).placeWord 0xE09E) = .next t ∧ (t.fault == some .keyIndexOutOfRange) = true) ∧
    (Fetches ((State.reset.setI 0xFFF).placeWord 0xD012) (.drw 0 1 2) ∧
      ∃ t, step ((State.reset.setI 0xFFF).placeWord 0xD012) = .next t ∧ (t.fault == some .memOutOfRange) = true) :=
  ⟨⟨rfl, _, rfl, rfl⟩, ⟨fetches_of (by decide), next_of (by decide)⟩, ⟨fetches_of (by decide), next_of (by decide)⟩,
    ⟨fetches_of (by decide), next_of (by decide)⟩, fetches_of (by decide), next_of (by decide)⟩

theorem witness_StackFaultsWriteNothing :
    (Fetches ({ State.reset with sp := 16 }.placeWord 0x2300) (.call 0x300) ∧
      ({ State.reset with sp := 16 }.placeWord 0x2300).sp.val = 16) ∧
    (Fetches (ready 0x00EE) .ret ∧ (ready 0x00EE).sp.val = 0) :=
  ⟨⟨fetches_of (by decide), by decide⟩, fetches_of (by decide), by decide⟩

/-- Each clause at the lowest I that raises the fault. -/
theorem witness_MemoryRangeIsCheckedBeforeAnyWrite :
    (1 ≤ (1 : Fin 16).val ∧ 4095 < (State.reset.setI 0x1000).i.toNat + (1 : Fin 16).val - 1) ∧
    4095 < (State.reset.setI 0xFFE).i.toNat + 2 ∧
    4095 < (State.reset.setI 0xFF1).i.toNat + (15 : Reg).val := by decide

theorem witness_KeyCodeAboveFifteenFaults : 15 < ((regs [(0, 16)]).reg 0).toNat := by decide

/-- A loaded CALL with one return address outstanding, at the bound a CALL can save. -/
abbrev calling : State := { State.reset with sp := 1, stk := State.reset.stk.set 0 4096 }.placeWord 0x2206

theorem witness_StepKeepsTheInvariant : Invariant calling ∧
    ∃ t, step calling = .next t ∧ (t.fault == none) = true :=
  ⟨⟨by decide, by decide, by decide, by decide⟩, next_of (by decide)⟩

theorem witness_HostOperationsKeepTheInvariant : Invariant calling := ⟨by decide, by decide, by decide, by decide⟩

theorem witness_EqualReadsAreEqualMemories : Memory.wf defaultFont [(0x300, 7)] ∧
    Memory.wf defaultFont (Memory.write defaultFont [] 0x300 7) ∧
    ∀ a, Memory.read defaultFont [(0x300, 7)] a = Memory.read defaultFont (Memory.write defaultFont [] 0x300 7) a :=
  ⟨by decide, by decide, fun _ => rfl⟩

theorem witness_EveryInstructionKeepsItsFrame : ∃ t, exec (.storeRegs 3) State.reset = .next t := ⟨_, rfl⟩

theorem witness_SoundTimerInfluencesNothing : State.reset.running := rfl

/-- Slot 1 differs, SP is 1, and the cycle is a CALL, which overwrites that slot. -/
theorem witness_DeadStackSlotsAreNeverSeen :
    (∀ k : Fin 16, k.val < ({ State.reset with sp := 1 }.placeWord 0x2206).sp.val →
      (State.reset.stk.set 1 7)[k] = ({ State.reset with sp := 1 }.placeWord 0x2206).stk[k]) ∧
    ∃ t, step ({ State.reset with sp := 1 }.placeWord 0x2206) = .next t ∧ (t.fault == none) = true :=
  ⟨by decide, next_of (by decide)⟩

/-- JP 0x200 at 0x200. -/
theorem witness_StoppedProgramStaysStopped : Stopped (ready 0x1200) :=
  ⟨0x200, by decide, fetches_of (by decide)⟩

theorem witness_CallPushesTheReturnAddress : ({ State.reset with sp := 15 } : State).sp.val < 16 := by decide

theorem witness_RetPopsTheReturnAddress : 1 ≤ ({ State.reset with sp := 16 } : State).sp.val := by decide

theorem witness_RetReturnsToAfterTheCall : ({ State.reset with sp := 15 } : State).sp.val < 16 ∧
    ∃ t, exec (.call 0x206) { State.reset with sp := 15 } = .next t ∧ t.stk = t.stk ∧ t.sp = t.sp :=
  ⟨by decide, _, rfl, rfl, rfl⟩

theorem witness_UnmappedWordsDoNothing : (∀ r ∈ opcodeRows, r.selects 0x8018 = false) ∧ (ready 0x8018).running ∧
    (ready 0x8018).fetch = some 0x8018 := by decide

theorem witness_LoadByteSetsTheRegister : (0x6F77 : Word) &&& 0xF000 = 0x6000 := by decide

theorem witness_AddReportsTheCarry : (0x8014 : Word) &&& 0xF00F = 0x8004 ∧ (0 : Reg) ≠ VF := by decide

theorem witness_SubtractsSetTheStrictFlag : (0 : Reg) ≠ VF := by decide

theorem witness_ShiftsMoveOneBitIntoTheFlag : (0 : Reg) ≠ VF := by decide

theorem witness_RandomByteIsMaskedAndConsumed : (0x00 : Byte) = 0 := rfl

/-- n = 0 with I past the end of Memory; n = 15 with the last row at 4095; and a collision: a glyph's corner over a cell
that is on. -/
theorem witness_DrawXorsTheSpriteAndReportsCollision :
    ((0 : Fin 16).val = 0 ∨ (State.reset.setI 0xFFFF).i.toNat + (0 : Fin 16).val - 1 ≤ 4095) ∧
    ((15 : Fin 16).val = 0 ∨ (State.reset.setI 0xFF1).i.toNat + (15 : Fin 16).val - 1 ≤ 4095) ∧
    (((cells State.reset [(0, 0)]).setI 0x050).cell 0 0 = true ∧
      spriteBit ((cells State.reset [(0, 0)]).setI 0x050) 0 0 5 0 0 = true) ∧
    (State.reset.setI 0x050).cell 0 0 = false := by decide

theorem witness_DrawingTwiceRestoresTheDisplay : (0 : Reg) ≠ VF ∧ (1 : Reg) ≠ VF ∧
    ((5 : Fin 16).val = 0 ∨ (State.reset.setI 0x050).i.toNat + (5 : Fin 16).val - 1 ≤ 4095) ∧
    ∃ t u, exec (.drw 0 1 5) (State.reset.setI 0x050) = .next t ∧ exec (.drw 0 1 5) t = .next u :=
  ⟨by decide, by decide, by decide, _, _, rfl, rfl⟩

/-- The highest key code. -/
theorem witness_KeySkipsTestTheKey : ((regs [(0, 15)]).reg 0).toNat = (15 : Fin 16).val := by decide

/-- Keys 9 and 12 pressed, and no key pressed. -/
theorem witness_KeyWaitLoadsTheLowestKeyOrRewinds :
    ((keys State.reset [12, 9]).keyDown 9 = true ∧ ∀ j, j < 9 → (keys State.reset [12, 9]).keyDown j = false) ∧
    ∀ k, State.reset.keyDown k = false := by decide

/-- The highest I at which the three digits fit. -/
theorem witness_DecimalDigitsAreStored : Memory.wf (State.reset.setI 0xFFD).font (State.reset.setI 0xFFD).mem ∧
    (State.reset.setI 0xFFD).i.toNat + 2 ≤ 4095 := by decide

theorem witness_BlockStoreWritesRegistersUpToX : Memory.wf (State.reset.setI 0xFF0).font (State.reset.setI 0xFF0).mem ∧
    (State.reset.setI 0xFF0).i.toNat + (15 : Reg).val ≤ 4095 := by decide

theorem witness_BlockLoadReadsRegistersUpToX : (State.reset.setI 0xFF0).i.toNat + (15 : Reg).val ≤ 4095 := by decide

theorem witness_BlockStoreThenLoadRoundTrips : Memory.wf (State.reset.setI 0xFF0).font (State.reset.setI 0xFF0).mem ∧
    (State.reset.setI 0xFF0).i.toNat + (15 : Reg).val ≤ 4095 ∧
    ∃ t, exec (.storeRegs 15) (State.reset.setI 0xFF0) = .next t := ⟨by decide, by decide, _, rfl⟩

theorem witness_MemoryTransfersKeepI : (∃ t, exec (.ldBVx 0) State.reset = .next t) ∧
    (∃ t, exec (.storeRegs 0) State.reset = .next t) ∧ ∃ t, exec (.loadRegs 0) State.reset = .next t :=
  ⟨⟨_, rfl⟩, ⟨_, rfl⟩, _, rfl⟩

/-- R7's bound met at its edge, by a font that ends at the boot address. -/
theorem witness_IndexWritesChangeOnlyI :
    (State.resetWith { base := 0x1B0, data := List.replicate 80 0xFF }).font.fits := by decide

/-- The parameters of `ResetMeetsTheInvariant`, and those of the clause on the font in `HasResetValues` for the host's
reset. -/
theorem witness_ResetMeetsTheInvariant : otherFont.fits := by decide

theorem witness_ResetLeavesTheListedState : ((ready 0x00EE).raise .stackUnderflow).hostReset.font.fits := by decide

/-- The longest image that is loaded, and the shortest that is refused. -/
theorem witness_LoadImageCopiesOrRefusesWhole : 3584 < (List.replicate 3585 (0 : Byte)).length ∧
    (List.replicate 3584 (0 : Byte)).length ≤ 3584 ∧ Memory.wf State.reset.font State.reset.mem :=
  ⟨by simp, by simp, Memory.wf_nil⟩

end Sys2Proof.Tests
end

namespace Sys2Proof

/-! ### The fetch is big-endian (R54) -/

/-- The family nibble of an opcode is the high nibble of the byte at the lower address. -/
theorem bits_family_wordOfBytes (hi lo : Byte) : bits (wordOfBytes hi lo) 15 12 = hi.toNat / 16 := by
  have := hi.isLt
  have := lo.isLt
  rw [bits, wordOfBytes_toNat]
  omega

/-- The x field of an opcode is the low nibble of the byte at the lower address. -/
theorem bits_x_wordOfBytes (hi lo : Byte) : bits (wordOfBytes hi lo) 11 8 = hi.toNat % 16 := by
  have := lo.isLt
  rw [bits, wordOfBytes_toNat]
  omega

/-- Exactly two bytes decode as the opcode they form. -/
theorem decode_pair (hi lo : Byte) : decode [hi, lo] = .ok (decodeWord (wordOfBytes hi lo), []) := rfl

end Sys2Proof

namespace Sys2Proof.Machine

/-- A running core fetches the instruction of the opcode its fetch answers. -/
theorem fetches_of_fetch {s : State} {op : Word} (hr : s.running) (hf : s.fetch = some op) :
    Fetches s (decodeWord op) := by
  obtain ⟨hpc, rfl⟩ := State.fetch_eq_some.mp hf
  exact ⟨hr, hpc, decode_pair _ _⟩

/-- Settles O8: the word is the one `State.fetch` answers, which is the two bytes at PC as R54 joins them. -/
theorem fetchIsBigEndian : Obligations.FetchIsBigEndian := by
  refine ⟨by decide, fun s hr hpc => ?_⟩
  have hf := State.fetch_eq_some.mpr ⟨hpc, rfl⟩
  exact ⟨_, wordOfBytes_toNat _ _, bits_family_wordOfBytes _ _, bits_x_wordOfBytes _ _, fetches_of_fetch hr hf,
    step_of_fetch hr hf⟩

end Sys2Proof.Machine

namespace Sys2Proof.Machine

/-! ### PC before and after the handler (R93) -/

@[simp] theorem State.advance_keyDown (s : State) (k : Fin 16) : s.advance.keyDown k = s.keyDown k := rfl

/-- What a core that fetches i does in one cycle: i's handler on the advanced state, then the end of the cycle. -/
theorem Fetches.step_eq {s : State} {i : Instr} (h : Fetches s i) : step s = finishCycle (exec i s.advance) := by
  obtain ⟨hr, hpc, hd⟩ := h
  rw [decode_pair] at hd
  cases hd
  exact step_of_fetch hr (State.fetch_eq_some.mpr ⟨hpc, rfl⟩)

/-- A cycle without a fault is a handler without a fault followed by the tick. -/
theorem Fetches.exec_of_clean_step {s t : State} {i : Instr} (h : Fetches s i) (ht : step s = .next t)
    (hclean : t.fault = none) : ∃ u, exec i s.advance = .next u ∧ u.fault = none ∧ t = u.tick := by
  rw [h.step_eq] at ht
  obtain ⟨u, hu, rfl⟩ := finishCycle_eq_next ht
  rw [State.endCycle_fault] at hclean
  exact ⟨u, hu, hclean, State.endCycle_of_running hclean⟩

/-- A handler that checks a condition, and raises a fault where it fails, leaves PC as its other branch does. -/
theorem pc_of_guarded_next {s a u : State} {c : Bool} {f : Fault}
    (h : (if c then .next a else .next (s.raise f) : Result) = .next u) (ha : a.pc = s.pc) : u.pc = s.pc := by
  cases c <;> cases h
  · rfl
  · exact ha

theorem State.loadBlock_pc (s : State) (x : Reg) : (s.loadBlock x).pc = s.pc := by rw [State.loadBlock_eq]

/-- A handler that may not write PC leaves it, whether or not it raises a fault. -/
theorem exec_pc_of_not_written {i : Instr} {s u : State} (h : exec i s = .next u) (hi : Field.pc ∉ Instr.mayWriteFields i) :
    u.pc = s.pc := by
  cases i
  case ret | jp | call | jpV0 | seByte | sneByte | seReg | sneReg | skp | sknp | ldVxK =>
    simp [Instr.mayWriteFields] at hi
  case drw | ldBVx | storeRegs => exact pc_of_guarded_next h rfl
  case loadRegs x => exact pc_of_guarded_next h (s.loadBlock_pc x)
  all_goals
    cases h
    rfl

/-! ### The handlers that transfer control, when they raise no fault -/

/-- A RET that raises no fault popped the word it jumps to (R110). -/
theorem exec_ret_of_clean {s u : State} (h : exec .ret s = .next u) (hu : u.fault = none) :
    ∃ w t, s.pop = some (w, t) ∧ u = t.setPc w := by
  simp only [exec, execRet] at h
  split at h <;> cases h
  · exact ⟨_, _, ‹_›, rfl⟩
  · cases hu

/-- A CALL that raises no fault pushed the PC it was entered with and jumped (R112). -/
theorem exec_call_of_clean {nnn : Addr12} {s u : State} (h : exec (.call nnn) s = .next u) (hu : u.fault = none) :
    ∃ t, s.push s.pc = some t ∧ u = t.setPc (addrOf nnn) := by
  simp only [exec, execCall] at h
  split at h <;> cases h
  · exact ⟨_, ‹_›, rfl⟩
  · cases hu

/-- An SKP that raises no fault skips by the key its register names (R150). -/
theorem exec_skp_of_clean {x : Reg} {s u : State} (h : exec (.skp x) s = .next u) (hu : u.fault = none) :
    ∃ k, (s.reg x).toNat = k.val ∧ u = s.skipIf (s.keyDown k) := by
  simp only [exec, execSkp] at h
  split at h <;> cases h
  · exact ⟨_, keyOfCode_eq_some.mp ‹_›, rfl⟩
  · cases hu

/-- An SKNP that raises no fault skips by the key its register names (R151). -/
theorem exec_sknp_of_clean {x : Reg} {s u : State} (h : exec (.sknp x) s = .next u) (hu : u.fault = none) :
    ∃ k, (s.reg x).toNat = k.val ∧ u = s.skipIf (!s.keyDown k) := by
  simp only [exec, execSknp] at h
  split at h <;> cases h
  · exact ⟨_, keyOfCode_eq_some.mp ‹_›, rfl⟩
  · cases hu

/-- `LD Vx,K` goes back to its own address exactly when no key is pressed. -/
theorem exec_ldVxK_pc {x : Reg} {s u : State} (h : exec (.ldVxK x) s = .next u) :
    u.pc = if ∃ k, s.keyDown k = true then s.pc else s.pc - 2 := by
  simp only [exec, execLdVxK] at h
  split at h <;> cases h
  next k hk => exact (if_pos ⟨k, (State.firstKey_eq_some.mp hk).1⟩).symm
  next hk => simp [State.firstKey_eq_none.mp hk, State.rewind]

/-- A push puts its word in the slot at the old SP. -/
theorem State.push_slot {s t : State} {w : Word} (h : s.push w = some t) : t.stk[s.sp.val]? = some w := by
  obtain ⟨hs, rfl⟩ := State.push_eq_some h
  simp

/-- A pop gives the word in the slot below SP. -/
theorem State.pop_slot {s t : State} {w : Word} (h : s.pop = some (w, t)) : s.stk[s.sp.val - 1]? = some w := by
  obtain ⟨hs, rfl, -⟩ := State.pop_eq_some h
  simp

/-- A skip from the advanced PC a + 2 ends at a + 4. -/
theorem State.skipIf_advance_pc (s : State) (c : Bool) :
    (s.advance.skipIf c).pc = if c then s.pc + 4 else s.pc + 2 := by
  rw [State.skipIf_pc, State.advance_pc, BitVec.add_assoc]
  rfl

/-- Settles O10: the cycle is one handler on the advanced state and a tick, which keeps PC and the stack; a handler that
may write PC is taken by its own rule, and every other leaves a + 2. -/
theorem pcIsAdvancedBeforeTheHandler : Obligations.PcIsAdvancedBeforeTheHandler := by
  intro s t i hf ht hclean
  obtain ⟨u, hu, huclean, rfl⟩ := hf.exec_of_clean_step ht hclean
  refine ⟨hf.step_eq, by bv_omega, ?_, ?_⟩
  · rintro nnn rfl
    obtain ⟨v, hv, rfl⟩ := exec_call_of_clean hu huclean
    exact (State.push_slot hv :)
  cases i
  case jp nnn =>
    cases hu
    exact addrOf_toNat nnn
  case call nnn =>
    obtain ⟨v, -, rfl⟩ := exec_call_of_clean hu huclean
    exact addrOf_toNat nnn
  case jpV0 nnn =>
    cases hu
    exact indexedAddr_toNat s nnn
  case ret =>
    obtain ⟨w, v, hv, rfl⟩ := exec_ret_of_clean hu huclean
    exact (State.pop_slot hv :)
  case seByte | sneByte | seReg | sneReg =>
    cases hu
    simp [State.skipIf_advance_pc]
  case skp x =>
    obtain ⟨k, hk, rfl⟩ := exec_skp_of_clean hu huclean
    rw [State.advance_reg] at hk
    simp [hk, State.skipIf_advance_pc, Fin.val_inj]
  case sknp x =>
    obtain ⟨k, hk, rfl⟩ := exec_sknp_of_clean hu huclean
    rw [State.advance_reg] at hk
    simp [hk, State.skipIf_advance_pc, Fin.val_inj]
  case ldVxK x => simpa using exec_ldVxK_pc hu
  all_goals exact exec_pc_of_not_written hu (by simp [Instr.mayWriteFields])

end Sys2Proof.Machine

namespace Sys2Proof

/-! ### Words that carry a row's match, read as fields (R74, R75, R81) -/

/-- A match under the family mask fixes the family nibble. -/
theorem bits_family_of_and_F000 {w p : Word} (h : w &&& 0xF000 = p) : bits w 15 12 = p.toNat / 4096 := by
  have hp : w.toNat / 4096 * 4096 = p.toNat := (and_F000_toNat w).symm.trans (congrArg BitVec.toNat h)
  have := w.isLt
  rw [bits]
  omega

/-- A match under the mask of family and lowest nibble fixes both nibbles. -/
theorem bits_of_and_F00F {w p : Word} (h : w &&& 0xF00F = p) :
    bits w 15 12 = p.toNat / 4096 ∧ bits w 3 0 = p.toNat % 16 := by
  have hp : w.toNat / 4096 * 4096 + w.toNat % 16 = p.toNat :=
    (and_F00F_toNat w).symm.trans (congrArg BitVec.toNat h)
  have := w.isLt
  simp only [bits]
  omega

/-- The words of `LD Vx,byte` (R120). -/
theorem decodeWord_6xkk {w : Word} (h : w &&& 0xF000 = 0x6000) : decodeWord w = .ldByte (fieldX w) (fieldKK w) := by
  have hfamily : bits w 15 12 = 0x6 := bits_family_of_and_F000 h
  rw [decodeWord, hfamily]
  rfl

/-- The words of `ADD Vx,Vy` (R127). -/
theorem decodeWord_8xy4 {w : Word} (h : w &&& 0xF00F = 0x8004) : decodeWord w = .addReg (fieldX w) (fieldY w) := by
  have hbits : bits w 15 12 = 0x8 ∧ bits w 3 0 = 0x4 := bits_of_and_F00F h
  obtain ⟨hfamily, hlow⟩ := hbits
  calc decodeWord w
      _ = decodeFamily8 w := by
        rw [decodeWord, hfamily]
        rfl
      _ = .addReg (fieldX w) (fieldY w) := by
        rw [decodeFamily8, hlow]
        rfl

end Sys2Proof

namespace Sys2Proof.Machine

/-! ### A register load and the add with carry (R120, R127) -/

theorem exec_ldByte (x : Reg) (kk : Byte) (s : State) : exec (.ldByte x kk) s = .next (s.setReg x kk) := rfl

theorem exec_addReg (x y : Reg) (s : State) : exec (.addReg x y) s =
    .next (s.writeFlagThenResult x (carryFlag (s.reg x) (s.reg y)) (sumByte (s.reg x) (s.reg y))) := rfl

theorem carryFlag_eq (a b : Byte) : carryFlag a b = if 255 < a.toNat + b.toNat then 1 else 0 := by
  rw [carryFlag, flagByte_eq]
  simp only [decide_eq_true_eq]

/-- The result is written last, so it is what x holds, also when x is VF (R126). -/
@[simp] theorem State.writeFlagThenResult_reg_self (s : State) (x : Reg) (f r : Byte) :
    (s.writeFlagThenResult x f r).reg x = r := by
  rw [State.reg_writeFlagThenResult, if_pos rfl]

/-- The flag survives in VF where the result goes to another register (R126). -/
theorem State.writeFlagThenResult_reg_VF (s : State) {x : Reg} (f r : Byte) (hx : x ≠ VF) :
    (s.writeFlagThenResult x f r).reg VF = f := by
  rw [State.reg_writeFlagThenResult, if_neg hx.symm, if_pos rfl]

/-- Settles O37: the sum and the carry are of the operands read before either write, and the sum is written last. -/
theorem addReportsTheCarry : Obligations.AddReportsTheCarry := by
  refine ⟨fun w hw => decodeWord_8xy4 hw, fun x y s => ⟨_, exec_addReg x y s, ?sum, fun hx => ?carry, ?frame⟩⟩
  case sum => rw [State.writeFlagThenResult_reg_self, sumByte_toNat]
  case carry => rw [State.writeFlagThenResult_reg_VF s _ _ hx, carryFlag_eq]
  case frame => exact frame_writeFlagThenResult s x _ _

/-- Settles O34: the handler is one register write. -/
theorem loadByteSetsTheRegister : Obligations.LoadByteSetsTheRegister :=
  ⟨fun _ hw => decodeWord_6xkk hw,
    fun x kk s => ⟨_, exec_ldByte x kk s, s.reg_setReg_self x kk, frame_setReg s x kk⟩⟩

end Sys2Proof.Machine

namespace Sys2Proof.Machine

/-! ### Memory transfer (spec/45_memory_transfer.md) -/

/-- A handler that checks a condition answers its checked branch or the raised fault. -/
theorem guarded_next_cases {s a u : State} {c : Bool} {f : Fault}
    (h : (if c then .next a else .next (s.raise f) : Result) = .next u) : u = a ∨ u = s.raise f := by
  cases c <;> cases h
  · exact .inr rfl
  · exact .inl rfl

theorem State.loadBlock_i (s : State) (x : Reg) : (s.loadBlock x).i = s.i := by rw [State.loadBlock_eq]

/-- Settles O53: each transfer answers its write or the raised fault, and neither writes I. -/
theorem memoryTransfersKeepI : Obligations.MemoryTransfersKeepI := by
  rintro x s t (hbcd | hstore | hload)
  · obtain rfl | rfl := guarded_next_cases hbcd
    · exact s.setBytes_i _ _
    · exact s.raise_i _
  · obtain rfl | rfl := guarded_next_cases hstore
    · exact s.setBytes_i _ _
    · exact s.raise_i _
  · obtain rfl | rfl := guarded_next_cases hload
    · exact s.loadBlock_i x
    · exact s.raise_i _

/-- The bytes at I exist when the last of them is inside Memory (R57). -/
theorem State.indexRange_of_le {s : State} {len : Nat} (h : s.i.toNat + len ≤ Config.memSize) :
    s.indexRange len = true :=
  (rangeExists_iff _ _).mpr (.inr h)

/-- `LD B,Vx` stores the digits where all three addresses exist (R160). -/
theorem exec_ldBVx_of_range {x : Reg} {s : State} (h : s.i.toNat + 3 ≤ Config.memSize) :
    exec (.ldBVx x) s = .next (s.setBytes s.i.toNat (decimalDigits (s.reg x))) :=
  if_pos (State.indexRange_of_le h)

/-- A stored byte string read at an offset inside it. -/
theorem State.byteAt_setBytes_add {s : State} (hm : Memory.wf s.font s.mem) {a : Nat} {bs : List Byte}
    (ha : a + bs.length ≤ Config.memSize) {k : Nat} (hk : k < bs.length) :
    (s.setBytes a bs).byteAt (a + k) = bs[k] := by
  rw [State.byteAt_setBytes s hm a bs ha, dif_pos (by omega)]
  simp only [Nat.add_sub_cancel_left]

@[simp] theorem decimalDigits_length (v : Byte) : (decimalDigits v).length = 3 := rfl

/-- No digit is cut off by its byte. -/
theorem decimalDigits_toNat (v : Byte) :
    (decimalDigits v).map BitVec.toNat = [v.toNat / 100, v.toNat / 10 % 10, v.toNat % 10] := by
  have := v.isLt
  simp only [decimalDigits, List.map_cons, List.map_nil, BitVec.toNat_ofNat, List.cons.injEq, and_true]
  omega

/-- The three stored digits, read back as numbers. -/
theorem State.byteAt_setBytes_decimalDigits {s : State} (hm : Memory.wf s.font s.mem) {a : Nat} (v : Byte)
    (ha : a + 3 ≤ Config.memSize) :
    ((s.setBytes a (decimalDigits v)).byteAt a).toNat = v.toNat / 100 ∧
    ((s.setBytes a (decimalDigits v)).byteAt (a + 1)).toNat = v.toNat / 10 % 10 ∧
    ((s.setBytes a (decimalDigits v)).byteAt (a + 2)).toNat = v.toNat % 10 := by
  have digit (k : Nat) (hk : k < 3) : ((s.setBytes a (decimalDigits v)).byteAt (a + k)).toNat =
      ((decimalDigits v).map BitVec.toNat)[k]'(by simpa using hk) := by
    rw [State.byteAt_setBytes_add hm ha hk, List.getElem_map]
    rfl
  simp only [decimalDigits_toNat] at digit
  exact ⟨digit 0 (by decide), digit 1 (by decide), digit 2 (by decide)⟩

/-- Three decimal digits are fixed by the number they write. -/
theorem digits_eq_of_sum_eq {h t o n : Nat} (ht : t ≤ 9) (ho : o ≤ 9) (hn : 100 * h + 10 * t + o = n) :
    h = n / 100 ∧ t = n / 10 % 10 ∧ o = n % 10 := by
  omega

/-- Settles O49: the digits are the quotient and remainders R160 stores, and the sum fixes them. -/
theorem decimalDigitsAreStored : Obligations.DecimalDigitsAreStored := by
  intro x s hm hi
  have hrange : s.i.toNat + 3 ≤ Config.memSize := by
    simp only [Config.memSize]
    omega
  obtain ⟨hundreds, tens, ones⟩ := State.byteAt_setBytes_decimalDigits hm (s.reg x) hrange
  have := (s.reg x).isLt
  refine ⟨_, exec_ldBVx_of_range hrange, frame_setBytes s _ _, _, _, _, hundreds, tens, ones, ?_, ?_, ?_, ?_,
    fun h t o _ ht ho hsum => digits_eq_of_sum_eq ht ho hsum⟩ <;> omega

end Sys2Proof.Machine

namespace Sys2Proof

/-! ### The fields of the encoder's words (R71, R72) -/

@[simp] theorem bits_family_encodeA {f : Nat} (hf : f < 16) (nnn : Addr12) : bits (encodeA f nnn) 15 12 = f := by
  have := nnn.isLt
  rw [bits, encodeA_toNat f hf]
  omega

@[simp] theorem fieldNNN_encodeA {f : Nat} (hf : f < 16) (nnn : Addr12) : fieldNNN (encodeA f nnn) = nnn := by
  have := nnn.isLt
  apply BitVec.eq_of_toNat_eq
  rw [fieldNNN, BitVec.toNat_ofNat, bits, encodeA_toNat f hf]
  omega

@[simp] theorem bits_family_encodeXK {f : Nat} (hf : f < 16) (x : Reg) (kk : Byte) :
    bits (encodeXK f x kk) 15 12 = f := by
  have := kk.isLt
  rw [bits, encodeXK_toNat f hf]
  omega

@[simp] theorem bits_low_byte_encodeXK {f : Nat} (hf : f < 16) (x : Reg) (kk : Byte) :
    bits (encodeXK f x kk) 7 0 = kk.toNat := by
  have := kk.isLt
  rw [bits, encodeXK_toNat f hf]
  omega

@[simp] theorem bits_low_nibble_encodeXK {f : Nat} (hf : f < 16) (x : Reg) (kk : Byte) :
    bits (encodeXK f x kk) 3 0 = kk.toNat % 16 := by
  rw [bits, encodeXK_toNat f hf]
  omega

@[simp] theorem fieldX_encodeXK {f : Nat} (hf : f < 16) (x : Reg) (kk : Byte) : fieldX (encodeXK f x kk) = x := by
  have := kk.isLt
  apply Fin.ext
  rw [fieldX, Fin.val_ofNat, bits, encodeXK_toNat f hf]
  omega

@[simp] theorem fieldKK_encodeXK {f : Nat} (hf : f < 16) (x : Reg) (kk : Byte) : fieldKK (encodeXK f x kk) = kk := by
  rw [fieldKK, bits_low_byte_encodeXK hf, BitVec.ofNat_toNat, BitVec.setWidth_eq]

@[simp] theorem bits_family_encodeXY {f : Nat} (hf : f < 16) (x y : Reg) (n : Fin 16) :
    bits (encodeXY f x y n) 15 12 = f := by
  rw [bits, encodeXY_toNat f hf]
  omega

@[simp] theorem bits_low_nibble_encodeXY {f : Nat} (hf : f < 16) (x y : Reg) (n : Fin 16) :
    bits (encodeXY f x y n) 3 0 = n.val := by
  rw [bits, encodeXY_toNat f hf]
  omega

@[simp] theorem fieldX_encodeXY {f : Nat} (hf : f < 16) (x y : Reg) (n : Fin 16) :
    fieldX (encodeXY f x y n) = x := by
  apply Fin.ext
  rw [fieldX, Fin.val_ofNat, bits, encodeXY_toNat f hf]
  omega

@[simp] theorem fieldY_encodeXY {f : Nat} (hf : f < 16) (x y : Reg) (n : Fin 16) :
    fieldY (encodeXY f x y n) = y := by
  apply Fin.ext
  rw [fieldY, Fin.val_ofNat, bits, encodeXY_toNat f hf]
  omega

@[simp] theorem fieldN_encodeXY {f : Nat} (hf : f < 16) (x y : Reg) (n : Fin 16) :
    fieldN (encodeXY f x y n) = n := by
  apply Fin.ext
  rw [fieldN, Fin.val_ofNat, bits_low_nibble_encodeXY hf]
  omega

/-! ### Dispatch on the family nibble, then on the selector (R74 to R76) -/

theorem decodeWord_of_family0 {w : Word} (h : bits w 15 12 = 0x0) : decodeWord w = decodeFamily0 w := by
  rw [decodeWord, h]
  rfl

theorem decodeWord_of_family8 {w : Word} (h : bits w 15 12 = 0x8) : decodeWord w = decodeFamily8 w := by
  rw [decodeWord, h]
  rfl

theorem decodeWord_of_familyE {w : Word} (h : bits w 15 12 = 0xE) : decodeWord w = decodeFamilyE w := by
  rw [decodeWord, h]
  rfl

theorem decodeWord_of_familyF {w : Word} (h : bits w 15 12 = 0xF) : decodeWord w = decodeFamilyF w := by
  rw [decodeWord, h]
  rfl

theorem bits_15_12 (w : Word) : bits w 15 12 = w.toNat / 4096 := by
  have := w.isLt
  rw [bits]
  omega

theorem bits_3_0 (w : Word) : bits w 3 0 = w.toNat % 16 := by
  rw [bits]
  omega

theorem bits_7_0 (w : Word) : bits w 7 0 = w.toNat % 256 := by
  rw [bits]
  omega

/-- An unmapped word is a NOP that holds it: its family's decoder meets none of its selectors (R78). -/
theorem decodeWord_of_unmapped {w : Word} (h : Unmapped w) : decodeWord w = .nop w := by
  simp only [Unmapped, ← bits_15_12, ← bits_3_0, ← bits_7_0] at h
  obtain ⟨hfamily, hsel⟩ | ⟨hfamily, hsel⟩ | ⟨hfamily, hsel⟩ | ⟨hfamily, hsel⟩ := h
  · rw [decodeWord_of_family0 hfamily, decodeFamily0]
    split <;> simp_all
  · rw [decodeWord_of_family8 hfamily, decodeFamily8]
    split <;> simp_all
  · rw [decodeWord_of_familyE hfamily, decodeFamilyE]
    split <;> simp_all
  · rw [decodeWord_of_familyF hfamily, decodeFamilyF]
    split <;> simp_all

/-- A well-formed instruction's word decodes to it. The encoder wrote each field where the decoder reads it. -/
theorem decodeWord_encode (i : Instr) (hi : i.wellFormed = true) : decodeWord (encode i) = i := by
  cases i
  case nop w => exact decodeWord_of_unmapped (of_decide_eq_true hi)
  case cls | ret => decide
  case jp | call | ldI | jpV0 => simp [encode, decodeWord]
  case seByte | sneByte | ldByte | addByte | rnd => simp [encode, decodeWord]
  case seReg | sneReg | drw => simp [encode, decodeWord]
  case ldReg | orReg | andReg | xorReg | addReg | subReg | shr | subnReg | shl =>
    simp [encode, decodeWord_of_family8, decodeFamily8]
  case skp | sknp => simp [encode, decodeWord_of_familyE, decodeFamilyE]
  all_goals simp [encode, decodeWord_of_familyF, decodeFamilyF]

/-- Settles O2: the bytes of a word decode as the word, and the word of an instruction as the instruction. -/
theorem encodedInstructionsDecodeBack : Obligations.EncodedInstructionsDecodeBack := by
  intro i rest hi
  rw [encodeBytes, decode_wordBytes, decodeWord_encode i hi]

end Sys2Proof

namespace Sys2Proof

/-! ### The opcode map (R81) -/

/-- A row whose mask is the family nibble selects by the family. -/
theorem selects_mask_F000 (m : String) (p w : Word) (b : Word → Instr) (hp : p.toNat % 4096 = 0) :
    OpcodeRow.selects ⟨m, 0xF000#16, p, b⟩ w = true ↔ bits w 15 12 = p.toNat / 4096 := by
  rw [OpcodeRow.selects, beq_iff_eq, ← BitVec.toNat_inj, and_F000_toNat, bits_15_12]
  dsimp only
  omega

/-- A row whose mask is the family and the lowest nibble selects by both. -/
theorem selects_mask_F00F (m : String) (p w : Word) (b : Word → Instr) (hp : p.toNat / 16 % 256 = 0) :
    OpcodeRow.selects ⟨m, 0xF00F#16, p, b⟩ w = true ↔
      bits w 15 12 = p.toNat / 4096 ∧ bits w 3 0 = p.toNat % 16 := by
  rw [OpcodeRow.selects, beq_iff_eq, ← BitVec.toNat_inj, and_F00F_toNat, bits_15_12, bits_3_0]
  dsimp only
  omega

/-- A row whose mask is the family nibble and the lowest byte selects by both. -/
theorem selects_mask_F0FF (m : String) (p w : Word) (b : Word → Instr) (hp : p.toNat / 256 % 16 = 0) :
    OpcodeRow.selects ⟨m, 0xF0FF#16, p, b⟩ w = true ↔
      bits w 15 12 = p.toNat / 4096 ∧ bits w 7 0 = p.toNat % 256 := by
  rw [OpcodeRow.selects, beq_iff_eq, ← BitVec.toNat_inj, and_F0FF_toNat, bits_15_12, bits_7_0]
  dsimp only
  omega

/-- A word that selects a row decodes to the row's instruction, with its operands read from the word. -/
theorem decodeWord_of_selects {w : Word} : ∀ r ∈ opcodeRows, r.selects w = true → decodeWord w = r.build w := by
  simp only [opcodeRows, opcodeRowsLow, opcodeRowsHigh, List.cons_append, List.nil_append, List.forall_mem_cons,
    List.not_mem_nil, false_imp_iff, implies_true, and_true, BitVec.ofNat_eq_ofNat]
  simp only [BitVec.reduceToNat, Nat.reduceMod, Nat.reduceDiv, selects_mask_F000, selects_mask_F00F,
    selects_mask_F0FF, and_imp]
  and_intros
  all_goals
    intros
    simp [decodeWord, decodeFamily0, decodeFamily8, decodeFamilyE, decodeFamilyF, *]

/-- A word that selects no row is in R78's list. -/
theorem unmapped_of_selects_none {w : Word} (h : ∀ r ∈ opcodeRows, r.selects w = false) : Unmapped w := by
  have hfamily : bits w 15 12 < 16 := Nat.mod_lt _ (by decide)
  have hlow : bits w 3 0 < 16 := Nat.mod_lt _ (by decide)
  simp only [opcodeRows, opcodeRowsLow, opcodeRowsHigh, List.cons_append, List.nil_append, List.forall_mem_cons,
    ← Bool.not_eq_true, BitVec.ofNat_eq_ofNat] at h
  simp only [BitVec.reduceToNat, Nat.reduceMod, Nat.reduceDiv, selects_mask_F000, selects_mask_F00F,
    selects_mask_F0FF] at h
  simp only [Unmapped, ← bits_15_12, ← bits_3_0, ← bits_7_0]
  generalize bits w 15 12 = family at *
  interval_cases family <;> simp_all
  omega

/-- The rows of R81 conflict on a bit that both masks keep. -/
theorem opcodeRows_conflict : opcodeRows.Pairwise (fun r q => r.pat &&& q.mask ≠ q.pat &&& r.mask) := by decide

/-- A word that selects both of two rows has both their matches on the bits both masks keep. -/
theorem OpcodeRow.agree_of_selects {r q : OpcodeRow} {w : Word} (hr : r.selects w = true) (hq : q.selects w = true) :
    r.pat &&& q.mask = q.pat &&& r.mask := by
  simp only [OpcodeRow.selects, beq_iff_eq] at hr hq
  rw [← hr, ← hq, BitVec.and_assoc, BitVec.and_assoc, BitVec.and_comm r.mask]

/-- No word selects two rows. -/
theorem opcodeRows_exclusive (w : Word) :
    opcodeRows.Pairwise (fun r q => ¬ (r.selects w = true ∧ q.selects w = true)) :=
  opcodeRows_conflict.imp fun hne ⟨hr, hq⟩ => hne (OpcodeRow.agree_of_selects hr hq)

end Sys2Proof

namespace Sys2Proof

/-- What the opcode map says of a word: a row it selects, or NOP where it selects none. -/
theorem lookupRows_cases (rows : List OpcodeRow) (w : Word) :
    (∃ r ∈ rows, r.selects w = true ∧ lookupRows rows w = r.build w) ∨
    ((∀ r ∈ rows, r.selects w = false) ∧ lookupRows rows w = .nop w) := by
  induction rows with
  | nil => exact .inr ⟨by simp, rfl⟩
  | cons r rows ih =>
    rw [lookupRows]
    split
    next hr => exact .inl ⟨r, List.mem_cons_self, hr, rfl⟩
    next hr =>
      rw [Bool.not_eq_true] at hr
      obtain ⟨q, hq, hsel, hrow⟩ | ⟨hnone, hrow⟩ := ih
      · exact .inl ⟨q, List.mem_cons_of_mem _ hq, hsel, hrow⟩
      · exact .inr ⟨List.forall_mem_cons.mpr ⟨hr, hnone⟩, hrow⟩

theorem decodeWord_of_selects_none {w : Word} (h : ∀ r ∈ opcodeRows, r.selects w = false) : decodeWord w = .nop w :=
  decodeWord_of_unmapped (unmapped_of_selects_none h)

/-- Settles O3: a word that selects a row decodes to that row's instruction, and any other word is unmapped. -/
theorem decoderAgreesWithTheOpcodeMap : Obligations.DecoderAgreesWithTheOpcodeMap := by
  intro w
  obtain ⟨r, hr, hsel, hrow⟩ | ⟨hnone, hrow⟩ := lookupRows_cases opcodeRows w
  · rw [hrow, decodeWord_of_selects r hr hsel]
  · rw [hrow, decodeWord_of_selects_none hnone]

/-- A list whose members exclude each other keeps at most one under a filter. -/
theorem length_filter_le_one {α : Type} {p : α → Bool} {l : List α}
    (h : l.Pairwise (fun a b => ¬ (p a = true ∧ p b = true))) : (l.filter p).length ≤ 1 := by
  have hfalse : (l.filter p).Pairwise (fun _ _ => False) :=
    (h.filter p).imp_of_mem fun ha hb hne => hne ⟨(List.mem_filter.mp ha).2, (List.mem_filter.mp hb).2⟩
  match l.filter p, hfalse with
  | [], _ | [_], _ => simp
  | _ :: b :: _, hfalse => exact (List.rel_of_pairwise_cons hfalse List.mem_cons_self).elim

/-- Settles O4: two rows always conflict on a bit that both their masks keep. -/
theorem opcodeRowsAreMutuallyExclusive : Obligations.OpcodeRowsAreMutuallyExclusive :=
  fun w => length_filter_le_one (opcodeRows_exclusive w)

/-- No row builds a NOP. -/
theorem build_ne_nop (w u : Word) : ∀ r ∈ opcodeRows, r.build w ≠ .nop u := by
  simp [opcodeRows, opcodeRowsLow, opcodeRowsHigh]

/-- Everything a word can decode to: the instruction of a row it selects, or, unmapped, the NOP that holds it. -/
theorem decodeWord_cases (w : Word) :
    (∃ r ∈ opcodeRows, decodeWord w = r.build w) ∨ (Unmapped w ∧ decodeWord w = .nop w) := by
  obtain ⟨r, hr, hsel, -⟩ | ⟨hnone, -⟩ := lookupRows_cases opcodeRows w
  · exact .inl ⟨r, hr, decodeWord_of_selects r hr hsel⟩
  · exact .inr ⟨unmapped_of_selects_none hnone, decodeWord_of_selects_none hnone⟩

/-- Settles O5: no row builds a NOP, so a word that decodes to one selects none. -/
theorem unmappedWordsAreExactlyTheNops : Obligations.UnmappedWordsAreExactlyTheNops := by
  refine fun w => ⟨decodeWord_of_unmapped, fun u hu => ?_⟩
  obtain ⟨r, hr, hrow⟩ | ⟨hunmapped, hnop⟩ := decodeWord_cases w
  · exact absurd (hrow.symm.trans hu) (build_ne_nop w u r hr)
  · exact ⟨(Instr.nop.inj (hnop.symm.trans hu)).symm, hunmapped⟩

theorem wellFormed_of_ne_nop {i : Instr} (h : ∀ u, i ≠ .nop u) : i.wellFormed = true := by
  cases i
  case nop u => exact absurd rfl (h u)
  all_goals rfl

/-- Decoding never fails (R79). -/
theorem decodeWord_wellFormed (w : Word) : (decodeWord w).wellFormed = true := by
  obtain ⟨r, hr, hrow⟩ | ⟨hunmapped, hnop⟩ := decodeWord_cases w
  · exact hrow ▸ wellFormed_of_ne_nop fun u => build_ne_nop w u r hr
  · exact hnop ▸ decide_eq_true hunmapped

/-- Settles O6: what a word decodes to is well-formed, and every well-formed instruction's word decodes back. -/
theorem decodedWordsAreWellFormed : Obligations.DecodedWordsAreWellFormed :=
  fun w => ⟨decodeWord_wellFormed w, decodeWord_encode _ (decodeWord_wellFormed w)⟩

/-! ### Ignored bits (R72) -/

theorem decodeFamily0_congr {w u : Word} (hlow : bits w 3 0 = bits u 3 0)
    (hsel : bits w 3 0 = 0x0 ∨ bits w 3 0 = 0xE) : decodeFamily0 w = decodeFamily0 u := by
  obtain h | h := hsel <;> simp [decodeFamily0, ← hlow, h]

theorem decodeFamilyE_congr {w u : Word} (hx : bits w 11 8 = bits u 11 8) (hlow : bits w 3 0 = bits u 3 0)
    (hsel : bits w 3 0 = 0x1 ∨ bits w 3 0 = 0xE) : decodeFamilyE w = decodeFamilyE u := by
  obtain h | h := hsel <;> simp [decodeFamilyE, fieldX, ← hlow, hx, h]

/-- Words that agree above the lowest nibble have the same family, x and y. -/
theorem fields_eq_of_bits_15_4 {w u : Word} (h : bits w 15 4 = bits u 15 4) :
    bits w 15 12 = bits u 15 12 ∧ fieldX w = fieldX u ∧ fieldY w = fieldY u := by
  have hw := w.isLt
  have hu := u.isLt
  simp only [fieldX, fieldY, bits] at *
  refine ⟨by omega, congrArg _ ?_, congrArg _ ?_⟩ <;> omega

/-- Settles O7: below the bits that the decoder dispatches on or reads as an operand, words may differ. -/
theorem ignoredBitsChangeNothing : Obligations.IgnoredBitsChangeNothing := by
  refine ⟨fun w u hfamily hlow => ⟨fun h0 hsel => ?_, fun hE hx hsel => ?_⟩, fun w u h hfamily => ?_,
    fun _ _ _ _ => ⟨rfl, rfl⟩⟩
  · rw [decodeWord_of_family0 h0, decodeWord_of_family0 (hfamily ▸ h0), decodeFamily0_congr hlow hsel]
  · rw [decodeWord_of_familyE hE, decodeWord_of_familyE (hfamily ▸ hE), decodeFamilyE_congr hx hlow hsel]
  · obtain ⟨hsame, hx, hy⟩ := fields_eq_of_bits_15_4 h
    obtain h5 | h9 := hfamily
    · simp [decodeWord, ← hsame, h5, hx, hy]
    · simp [decodeWord, ← hsame, h9, hx, hy]

/-- Settles O1, by running the decoder on each word. -/
theorem sampleWordsDecodeAsTheSpecLists : Obligations.SampleWordsDecodeAsTheSpecLists := by
  unfold Obligations.SampleWordsDecodeAsTheSpecLists
  decide

end Sys2Proof

namespace Sys2Proof.Machine

/-! ### What the handlers that match can do, said once -/

theorem exec_ret_cases {s t : State} (h : exec .ret s = .next t) :
    (∃ w u, s.pop = some (w, u) ∧ t = u.setPc w) ∨ t = s.raise .stackUnderflow := by
  simp only [exec, execRet] at h
  split at h <;> cases h
  · exact .inl ⟨_, _, ‹_›, rfl⟩
  · exact .inr rfl

theorem exec_call_cases {nnn : Addr12} {s t : State} (h : exec (.call nnn) s = .next t) :
    (∃ u, s.push s.pc = some u ∧ t = u.setPc (addrOf nnn)) ∨ t = s.raise .stackOverflow := by
  simp only [exec, execCall] at h
  split at h <;> cases h
  · exact .inl ⟨_, ‹_›, rfl⟩
  · exact .inr rfl

/-- SKP and SKNP skip or raise. -/
theorem exec_keySkip_cases {i : Instr} {s t : State} (hi : (∃ x, i = .skp x) ∨ ∃ x, i = .sknp x)
    (h : exec i s = .next t) : (∃ c, t = s.skipIf c) ∨ t = s.raise .keyIndexOutOfRange := by
  obtain ⟨x, rfl⟩ | ⟨x, rfl⟩ := hi
  all_goals
    simp only [exec, execSkp, execSknp] at h
    split at h <;> cases h
    · exact .inl ⟨_, rfl⟩
    · exact .inr rfl

theorem exec_ldVxK_cases {x : Reg} {s t : State} (h : exec (.ldVxK x) s = .next t) :
    (∃ k, s.firstKey = some k ∧ t = s.setReg x (codeOfKey k)) ∨ (s.firstKey = none ∧ t = s.rewind) := by
  simp only [exec, execLdVxK] at h
  split at h <;> cases h
  · exact .inl ⟨_, ‹_›, rfl⟩
  · exact .inr ⟨‹_›, rfl⟩

/-! ### The frame of every instruction (R23, R67, R140, R164) -/

/-- Where the latch may change, a handler's frame without a fault is its frame. -/
theorem Frame.append_fault {s t : State} {regs : List Reg} {fields : List Field} {bytes : Nat → Prop}
    (h : Frame s t regs fields bytes) : Frame s t regs (fields ++ [.fault]) bytes :=
  h.mono (fun _ h => h) (fun _ => List.mem_append_left _) (fun _ h => h)

/-- A raised fault is in every frame in which the latch may change. -/
theorem frame_raise_append_fault (s : State) (f : Fault) (regs : List Reg) (fields : List Field)
    (bytes : Nat → Prop) : Frame s (s.raise f) regs (fields ++ [.fault]) bytes :=
  (frame_raise s f).mono (by simp) (fun _ => List.mem_append_right _) (fun _ h => h.elim)

/-- The frame of a handler that checks a condition is that of its checked branch, and the latch. -/
theorem Frame.of_guarded {s a u : State} {c : Bool} {f : Fault} {regs : List Reg} {fields : List Field}
    {bytes : Nat → Prop} (h : (if c then .next a else .next (s.raise f) : Result) = .next u)
    (ha : Frame s a regs fields bytes) : Frame s u regs (fields ++ [.fault]) bytes := by
  obtain rfl | rfl := guarded_next_cases h
  · exact ha.append_fault
  · exact frame_raise_append_fault s f regs fields bytes

theorem frame_exec_ret {s t : State} (h : exec .ret s = .next t) : Frame s t [] [.pc, .sp, .fault] noBytes := by
  obtain ⟨w, u, hpop, rfl⟩ | rfl := exec_ret_cases h
  · exact ((frame_pop hpop).trans (frame_setPc u w)).mono (by simp) (by simp) (by simp)
  · exact frame_raise_append_fault s _ [] [.pc, .sp] _

theorem frame_exec_call {nnn : Addr12} {s t : State} (h : exec (.call nnn) s = .next t) :
    Frame s t [] [.pc, .stk, .sp, .fault] noBytes := by
  obtain ⟨u, hpush, rfl⟩ | rfl := exec_call_cases h
  · exact ((frame_push hpush).trans (frame_setPc u _)).mono (by simp) (by simp) (by simp)
  · exact frame_raise_append_fault s _ [] [.pc, .stk, .sp] _

theorem frame_exec_keySkip {i : Instr} {s t : State} (hi : (∃ x, i = .skp x) ∨ ∃ x, i = .sknp x)
    (h : exec i s = .next t) : Frame s t [] [.pc, .fault] noBytes := by
  obtain ⟨c, rfl⟩ | rfl := exec_keySkip_cases hi h
  · exact (frame_skipIf s c).append_fault
  · exact frame_raise_append_fault s _ [] [.pc] _

theorem frame_exec_ldVxK {x : Reg} {s t : State} (h : exec (.ldVxK x) s = .next t) :
    Frame s t [x] [.pc] noBytes := by
  obtain ⟨k, -, rfl⟩ | ⟨-, rfl⟩ := exec_ldVxK_cases h
  · exact (frame_setReg s x _).mono (by simp) (by simp) (by simp)
  · exact (frame_rewind s).mono (by simp) (by simp) (by simp)

theorem frame_setFb_setReg (s : State) (fb : Framebuffer) (x : Reg) (b : Byte) :
    Frame s ((s.setFb fb).setReg x b) [x] [.fb] noBytes :=
  ((frame_setFb s fb).trans (frame_setReg _ x b)).mono (by simp) (by simp) (by simp)

theorem frame_countDraw (s : State) : Frame s s.countDraw [] [.draws] noBytes :=
  frame_of_fields rfl rfl rfl fun f hf => by cases f <;> first | rfl | exact fun _ _ => rfl | simp at hf

theorem frame_setReg_countDraw (s : State) (x : Reg) (b : Byte) :
    Frame s (s.setReg x b).countDraw [x] [.draws] noBytes :=
  ((frame_setReg s x b).trans (frame_countDraw _)).mono (by simp) (by simp) (by simp)

/-- The block store writes x + 1 bytes at I. -/
theorem frame_setBytes_blockBytes (s : State) (x : Reg) :
    Frame s (s.setBytes s.i.toNat (blockBytes s x)) [] [] (bytesFrom s.i.toNat (x.val + 1)) :=
  blockBytes_length s x ▸ frame_setBytes s s.i.toNat (blockBytes s x)

/-- Settles O24: every handler is one shared operation, or two, whose frames are known. -/
theorem everyInstructionKeepsItsFrame : Obligations.EveryInstructionKeepsItsFrame := by
  intro i s t h
  cases i
  case ret => exact frame_exec_ret h
  case call => exact frame_exec_call h
  case skp | sknp => exact frame_exec_keySkip (by simp) h
  case ldVxK => exact frame_exec_ldVxK h
  case drw => exact Frame.of_guarded h (frame_setFb_setReg s _ _ _)
  case ldBVx => exact Frame.of_guarded h (frame_setBytes s _ _)
  case storeRegs x => exact Frame.of_guarded h (frame_setBytes_blockBytes s x)
  case loadRegs x => exact Frame.of_guarded h (frame_loadBlock s x)
  all_goals cases h
  case cls => exact frame_setFb s _
  case nop => exact frame_refl s
  case jp | jpV0 => exact frame_setPc s _
  case seByte | sneByte | seReg | sneReg => exact frame_skipIf s _
  case ldByte | addByte | ldReg | orReg | andReg | xorReg | ldVxDt => exact frame_setReg s _ _
  case addReg | subReg | subnReg => exact frame_writeFlagThenResult s _ _ _
  case shr | shl => exact frame_writeResultThenFlag s _ _ _
  case ldI | addIVx | ldFVx => exact frame_setI s _
  case rnd => exact frame_setReg_countDraw s _ _
  case ldDtVx => exact frame_setDt s _
  case ldStVx => exact frame_setSt s _

/-- A field outside an instruction's write set is unchanged by its handler. -/
theorem exec_field_same {i : Instr} {s t : State} (h : exec i s = .next t) {f : Field}
    (hf : f ∉ Instr.mayWriteFields i) : Field.same f s t := by
  obtain ⟨-, hfields, -⟩ := everyInstructionKeepsItsFrame i s t h
  exact hfields f hf

/-! ### The fault a handler raises (R170) -/

/-- The cause i's handler raises on s, if any (R170: the raisers and the condition of each cause). -/
def handlerFault (i : Instr) (s : State) : Option Fault :=
  match i with
  | .call _ => if s.sp.val = 16 then some .stackOverflow else none
  | .ret => if s.sp.val = 0 then some .stackUnderflow else none
  | .skp x | .sknp x => if 15 < (s.reg x).toNat then some .keyIndexOutOfRange else none
  | .drw _ _ n => if 1 ≤ n.val ∧ 4095 < s.i.toNat + n.val - 1 then some .memOutOfRange else none
  | .ldBVx _ => if 4095 < s.i.toNat + 2 then some .memOutOfRange else none
  | .storeRegs x | .loadRegs x => if 4095 < s.i.toNat + x.val then some .memOutOfRange else none
  | _ => none

/-- PC is no part of any handler's condition. -/
@[simp] theorem handlerFault_advance (i : Instr) (s : State) : handlerFault i s.advance = handlerFault i s := by
  cases i <;> rfl

/-- The cause of a fetch is raised by no handler. -/
theorem handlerFault_ne_fetchOutOfRange (i : Instr) (s : State) : handlerFault i s ≠ some .fetchOutOfRange := by
  cases i <;> simp [handlerFault]

/-- The cause of LoadImage is raised by no handler. -/
theorem handlerFault_ne_imageTooLarge (i : Instr) (s : State) : handlerFault i s ≠ some .imageTooLarge := by
  cases i <;> simp [handlerFault]

theorem State.indexRange_eq_false_iff {s : State} {len : Nat} :
    s.indexRange len = false ↔ 1 ≤ len ∧ 4095 < s.i.toNat + len - 1 := by
  rw [← Bool.not_eq_true, State.indexRange, rangeExists_iff]
  simp only [Config.memSize]
  omega

/-- A condition that guards a cause holds where the cause is raised. -/
theorem of_guard_eq_some {c : Prop} [Decidable c] {f g : Fault} (h : (if c then some f else none) = some g) :
    c ∧ g = f := by
  obtain ⟨hc, hfg⟩ := Option.ite_none_right_eq_some.mp h
  exact ⟨hc, (Option.some.inj hfg).symm⟩

/-- A handler that raises a fault latches it and does nothing else. -/
theorem exec_of_handlerFault {i : Instr} {s : State} {f : Fault} (h : handlerFault i s = some f) :
    exec i s = .next (s.raise f) := by
  cases i
  case call nnn =>
    obtain ⟨hsp, rfl⟩ := of_guard_eq_some h
    simp only [exec, execCall, State.push_eq_none.mpr hsp]
  case ret =>
    obtain ⟨hsp, rfl⟩ := of_guard_eq_some h
    simp only [exec, execRet, State.pop_eq_none.mpr hsp]
  case skp x =>
    obtain ⟨hkey, rfl⟩ := of_guard_eq_some h
    simp only [exec, execSkp, keyOfCode_eq_none.mpr hkey]
  case sknp x =>
    obtain ⟨hkey, rfl⟩ := of_guard_eq_some h
    simp only [exec, execSknp, keyOfCode_eq_none.mpr hkey]
  case drw | ldBVx | storeRegs | loadRegs =>
    obtain ⟨hrange, rfl⟩ := of_guard_eq_some h
    exact if_neg (Bool.eq_false_iff.mp (State.indexRange_eq_false_iff.mpr (by omega)))
  all_goals cases h

/-! ### The handlers that may fault, where they complete -/

/-- `CALL addr` on a stack that is not full (R112). -/
theorem exec_call_of_lt {nnn : Addr12} {s : State} (h : s.sp.val < 16) : exec (.call nnn) s =
    .next { s with stk := s.stk.set s.sp.val s.pc h, sp := ⟨s.sp.val + 1, by omega⟩, pc := addrOf nnn } := by
  simp only [exec, execCall, State.push, dif_pos h, State.setPc]

/-- `RET` on a stack that is not empty (R110). -/
theorem exec_ret_of_pos {s : State} (h : 0 < s.sp.val) : exec .ret s =
    .next { s with sp := ⟨s.sp.val - 1, by omega⟩, pc := s.stk[s.sp.val - 1] } := by
  simp only [exec, execRet, State.pop, dif_pos h, State.setPc]

/-- The frame of a CALL that completes. -/
theorem frame_exec_call_of_lt {nnn : Addr12} {s : State} (h : s.sp.val < 16) :
    Frame s { s with stk := s.stk.set s.sp.val s.pc h, sp := ⟨s.sp.val + 1, by omega⟩, pc := addrOf nnn }
      [] [.pc, .sp, .stk] noBytes :=
  ((frame_push (dif_pos h)).trans (frame_setPc _ _)).mono (by simp) (by simp) (by simp)

/-- The frame of a RET that completes. -/
theorem frame_exec_ret_of_pos {s : State} (h : 0 < s.sp.val) :
    Frame s { s with sp := ⟨s.sp.val - 1, by omega⟩, pc := s.stk[s.sp.val - 1] } [] [.pc, .sp] noBytes :=
  ((frame_pop (dif_pos h)).trans (frame_setPc _ _)).mono (by simp) (by simp) (by simp)

theorem exec_skp_of_key {x : Reg} {s : State} {k : Fin 16} (h : (s.reg x).toNat = k.val) :
    exec (.skp x) s = .next (s.skipIf (s.keyDown k)) := by
  simp only [exec, execSkp, keyOfCode_eq_some.mpr h]

theorem exec_sknp_of_key {x : Reg} {s : State} {k : Fin 16} (h : (s.reg x).toNat = k.val) :
    exec (.sknp x) s = .next (s.skipIf (!s.keyDown k)) := by
  simp only [exec, execSknp, keyOfCode_eq_some.mpr h]

theorem exec_ldVxK_of_key {x : Reg} {s : State} {k : Fin 16} (h : s.firstKey = some k) :
    exec (.ldVxK x) s = .next (s.setReg x (codeOfKey k)) := by
  simp only [exec, execLdVxK, h]

theorem exec_ldVxK_of_none {x : Reg} {s : State} (h : s.firstKey = none) : exec (.ldVxK x) s = .next s.rewind := by
  simp only [exec, execLdVxK, h]

/-- What `DRW` answers where the sprite's bytes exist. -/
theorem exec_drw_of_range {x y : Reg} {n : Fin 16} {s : State} (h : s.indexRange n.val = true) :
    exec (.drw x y n) s =
      .next ((s.setFb (drawSprite s (originColumn s x) (originRow s y) n.val ⟨s.fb, false⟩).fb).setReg VF
        (flagByte (drawSprite s (originColumn s x) (originRow s y) n.val ⟨s.fb, false⟩).hit)) :=
  if_pos h

theorem exec_storeRegs_of_range {x : Reg} {s : State} (h : s.i.toNat + (x.val + 1) ≤ Config.memSize) :
    exec (.storeRegs x) s = .next (s.setBytes s.i.toNat (blockBytes s x)) :=
  if_pos (State.indexRange_of_le h)

theorem exec_loadRegs_of_range {x : Reg} {s : State} (h : s.i.toNat + (x.val + 1) ≤ Config.memSize) :
    exec (.loadRegs x) s = .next (s.loadBlock x) :=
  if_pos (State.indexRange_of_le h)

theorem State.loadBlock_fault (s : State) (x : Reg) : (s.loadBlock x).fault = s.fault := by rw [State.loadBlock_eq]

/-- A condition that guards a cause fails where no cause is raised. -/
theorem not_of_guard_eq_none {c : Prop} [Decidable c] {f : Fault} (h : (if c then some f else none) = none) : ¬ c :=
  fun hc => by simp [hc] at h

/-- Where a transfer of len + 1 bytes raises no fault, they are inside Memory. -/
theorem range_of_guard_eq_none {a len : Nat} {f : Fault} (h : (if 4095 < a + len then some f else none) = none) :
    a + (len + 1) ≤ Config.memSize := by
  have := not_of_guard_eq_none h
  simp only [Config.memSize]
  omega

/-- Where a draw raises no fault, the sprite's bytes exist. -/
theorem State.indexRange_of_guard_eq_none {s : State} {len : Nat} {f : Fault}
    (h : (if 1 ≤ len ∧ 4095 < s.i.toNat + len - 1 then some f else none) = none) : s.indexRange len = true := by
  have hrange := not_of_guard_eq_none h
  rwa [← State.indexRange_eq_false_iff, Bool.not_eq_false] at hrange

/-- A handler that raises no fault completes. -/
theorem exec_of_handlerFault_none {i : Instr} {s : State} (h : handlerFault i s = none) :
    ∃ u, exec i s = .next u ∧ u.fault = s.fault := by
  cases i
  case call =>
    have hsp := not_of_guard_eq_none h
    exact ⟨_, exec_call_of_lt (by omega), rfl⟩
  case ret =>
    have hsp := not_of_guard_eq_none h
    exact ⟨_, exec_ret_of_pos (by omega), rfl⟩
  case skp x =>
    have hkey := not_of_guard_eq_none h
    exact ⟨_, exec_skp_of_key (k := ⟨(s.reg x).toNat, by omega⟩) rfl, by rw [State.skipIf_eq]⟩
  case sknp x =>
    have hkey := not_of_guard_eq_none h
    exact ⟨_, exec_sknp_of_key (k := ⟨(s.reg x).toNat, by omega⟩) rfl, by rw [State.skipIf_eq]⟩
  case drw => exact ⟨_, exec_drw_of_range (State.indexRange_of_guard_eq_none h), rfl⟩
  case ldBVx => exact ⟨_, exec_ldBVx_of_range (range_of_guard_eq_none h), rfl⟩
  case storeRegs => exact ⟨_, exec_storeRegs_of_range (range_of_guard_eq_none h), rfl⟩
  case loadRegs x => exact ⟨_, exec_loadRegs_of_range (range_of_guard_eq_none h), s.loadBlock_fault x⟩
  case ldVxK =>
    cases hk : s.firstKey with
    | some k => exact ⟨_, exec_ldVxK_of_key hk, rfl⟩
    | none => exact ⟨_, exec_ldVxK_of_none hk, rfl⟩
  case seByte | sneByte | seReg | sneReg => exact ⟨_, rfl, by rw [State.skipIf_eq]⟩
  all_goals exact ⟨_, rfl, rfl⟩

/-! ### One cycle and the latch (R98, R182) -/

/-- A cycle whose handler raises a fault ends with it, on the advanced state. -/
theorem Fetches.step_of_handlerFault {s : State} {i : Instr} {f : Fault} (h : Fetches s i)
    (hf : handlerFault i s = some f) : step s = .next (s.advance.raise f) := by
  rw [h.step_eq, exec_of_handlerFault ((handlerFault_advance i s).trans hf), finishCycle,
    State.endCycle_of_fault (State.raise_fault _ f)]

/-- A cycle whose handler answers a state without a fault ends with the tick. -/
theorem Fetches.step_of_exec {s u : State} {i : Instr} (h : Fetches s i) (hu : exec i s.advance = .next u)
    (hclean : u.fault = none) : step s = .next u.tick := by
  rw [h.step_eq, hu, finishCycle, State.endCycle_of_running hclean]

/-- A cycle whose handler raises no fault ends with the tick. -/
theorem Fetches.step_of_handlerFault_none {s : State} {i : Instr} (h : Fetches s i) (hf : handlerFault i s = none) :
    ∃ u, exec i s.advance = .next u ∧ u.fault = none ∧ step s = .next u.tick := by
  obtain ⟨u, hu, hfault⟩ := exec_of_handlerFault_none ((handlerFault_advance i s).trans hf)
  have hclean : u.fault = none := hfault.trans h.1
  exact ⟨u, hu, hclean, h.step_of_exec hu hclean⟩

/-- The latch after a cycle holds the cause its handler raises, if any. -/
theorem Fetches.fault_of_step {s t : State} {i : Instr} (h : Fetches s i) (ht : step s = .next t) :
    t.fault = handlerFault i s := by
  cases hf : handlerFault i s with
  | some f =>
    cases (h.step_of_handlerFault hf).symm.trans ht
    rfl
  | none =>
    obtain ⟨u, -, hclean, hu⟩ := h.step_of_handlerFault_none hf
    cases hu.symm.trans ht
    exact hclean

/-- A running core fetches an instruction, or its fetch is outside Memory and faults. -/
theorem State.running.fetches_or_faults {s : State} (hr : s.running) :
    (∃ i, Fetches s i) ∨ (4094 < s.pc.toNat ∧ step s = .next (s.raise .fetchOutOfRange)) := by
  cases hf : s.fetch with
  | some op => exact .inl ⟨_, fetches_of_fetch hr hf⟩
  | none => exact .inr ⟨State.fetch_eq_none.mp hf, step_of_fetch_none hr hf⟩

/-- Settles O12: a handler completes, or raises a fault, which is a next state too. -/
theorem runningCoreAlwaysSteps : Obligations.RunningCoreAlwaysSteps := by
  have handlers (i : Instr) (s : State) : ∃ t, exec i s = .next t := by
    cases hf : handlerFault i s with
    | some f => exact ⟨_, exec_of_handlerFault hf⟩
    | none =>
      obtain ⟨u, hu, -⟩ := exec_of_handlerFault_none hf
      exact ⟨u, hu⟩
  refine ⟨fun s hr => ?_, handlers⟩
  obtain ⟨i, hi⟩ | ⟨-, hfault⟩ := hr.fetches_or_faults
  · obtain ⟨t, ht⟩ := handlers i s.advance
    exact ⟨t.endCycle, by rw [hi.step_eq, ht, finishCycle]⟩
  · exact ⟨_, hfault⟩

/-- Settles O15: a cycle that latches a fault is a raise, on the state itself or on the advanced one. -/
theorem faultsArePrecise : Obligations.FaultsArePrecise := by
  intro s t f hr ht hf
  obtain ⟨i, hi⟩ | ⟨-, hfault⟩ := hr.fetches_or_faults
  · have hraised : handlerFault i s = some f := (hi.fault_of_step ht).symm.trans hf
    have hne : f ≠ .fetchOutOfRange := fun e => handlerFault_ne_fetchOutOfRange i s (e ▸ hraised)
    cases (hi.step_of_handlerFault hraised).symm.trans ht
    rw [if_neg hne]
    rfl
  · cases hfault.symm.trans ht
    cases hf
    rfl

/-- Settles O16: the latch after a cycle is the handler's fault, whose raisers and conditions are R170's. -/
theorem eachFaultHasItsOwnCause : Obligations.EachFaultHasItsOwnCause := by
  refine ⟨fun s t hr ht => ?_, fun s t i hi ht => ?_⟩
  · obtain ⟨i, hi⟩ | ⟨hpc, hfault⟩ := hr.fetches_or_faults
    · have hin : ¬ 4094 < s.pc.toNat := Nat.not_lt.mpr hi.2.1
      rw [hi.fault_of_step ht]
      exact ⟨by simp [handlerFault_ne_fetchOutOfRange, hin], handlerFault_ne_imageTooLarge i s⟩
    · cases hfault.symm.trans ht
      simp [hpc]
  · rw [hi.fault_of_step ht]
    cases i
    case drw | ldBVx =>
      simp [handlerFault]
      omega
    all_goals simp [handlerFault]

/-- Settles O13: the fetch fails, and its fault is all the cycle does. -/
theorem fetchOutsideMemoryFaults : Obligations.FetchOutsideMemoryFaults :=
  fun _ hr hpc => step_of_fetch_none hr (State.fetch_eq_none.mpr hpc)

/-- Settles O17: SP is what CALL and RET check first. -/
theorem stackFaultsWriteNothing : Obligations.StackFaultsWriteNothing :=
  ⟨fun _ _ hi hsp => hi.step_of_handlerFault (if_pos hsp), fun _ hi hsp => hi.step_of_handlerFault (if_pos hsp)⟩

/-- Settles O18: the range is what the four handlers check first. -/
theorem memoryRangeIsCheckedBeforeAnyWrite : Obligations.MemoryRangeIsCheckedBeforeAnyWrite :=
  ⟨fun _ _ _ _ hn hi => exec_of_handlerFault (if_pos ⟨hn, hi⟩), fun _ _ hi => exec_of_handlerFault (if_pos hi),
    fun _ _ hi => ⟨exec_of_handlerFault (if_pos hi), exec_of_handlerFault (if_pos hi)⟩⟩

/-- Settles O19: the key code is what SKP and SKNP check first. -/
theorem keyCodeAboveFifteenFaults : Obligations.KeyCodeAboveFifteenFaults :=
  fun _ _ hkey => ⟨exec_of_handlerFault (if_pos hkey), exec_of_handlerFault (if_pos hkey)⟩

/-- Settles O9: the step is the handler on the advanced state, and the tick where the handler raised no fault. -/
theorem stepRunsTheDecodedInstruction : Obligations.StepRunsTheDecodedInstruction := by
  intro s i hi
  obtain ⟨t, ht⟩ := runningCoreAlwaysSteps.2 i s.advance
  have hstep : step s = .next t.endCycle := by rw [hi.step_eq, ht, finishCycle]
  refine ⟨t, ht, fun hclean => ?_, fun hfault => ?_⟩
  · rw [hstep, State.endCycle_of_running hclean]
    rfl
  · obtain ⟨f, hf⟩ := Option.ne_none_iff_exists'.mp hfault
    rw [hstep, State.endCycle_of_fault hf]

/-- LoadImage writes the image's bytes or latches its own fault: it never clears the latch. -/
theorem State.loadImage_fault_ne_none {s : State} (h : s.fault ≠ none) (bytes : List Byte) :
    (s.loadImage bytes).fault ≠ none := by
  unfold State.loadImage
  split
  · exact h
  · simp

/-- Settles O14: a step looks at the latch first, and of the host's operations only reset clears it. -/
theorem haltedCoreStaysHalted : Obligations.HaltedCoreStaysHalted :=
  fun s _ hf => ⟨step_of_fault hf, s.loadImage_fault_ne_none (by simp [hf]), fun _ => hf, rfl⟩

end Sys2Proof.Machine

namespace Sys2Proof.Machine

/-! ### The invariant (R27, R40): Memory's form -/

/-- A checked store keeps Memory's form. -/
theorem wf_of_guarded_setBytes {s t : State} {bs : List Byte} {f : Fault} (hm : Memory.wf s.font s.mem)
    (h : (if s.indexRange bs.length then .next (s.setBytes s.i.toNat bs) else .next (s.raise f) : Result) = .next t) :
    Memory.wf t.font t.mem := by
  split at h <;> cases h
  next hrange =>
    obtain hnil | hle := (rangeExists_iff _ _).mp hrange
    · rw [List.length_eq_zero_iff.mp hnil]
      exact hm
    · exact Memory.wf_writeBytes _ _ _ hle hm
  next => exact hm

/-- Only `LD B,Vx` and `LD [I],Vx` write Memory (R67). -/
theorem exec_mem_of_not_stored {i : Instr} {s t : State} (h : exec i s = .next t) (hbcd : ∀ x, i ≠ .ldBVx x)
    (hstore : ∀ x, i ≠ .storeRegs x) : t.mem = s.mem := by
  cases i
  case ldBVx x => exact absurd rfl (hbcd x)
  case storeRegs x => exact absurd rfl (hstore x)
  case ret =>
    obtain ⟨w, u, hpop, rfl⟩ | rfl := exec_ret_cases h
    · obtain ⟨-, -, rfl⟩ := State.pop_eq_some hpop
      rfl
    · rfl
  case call =>
    obtain ⟨u, hpush, rfl⟩ | rfl := exec_call_cases h
    · obtain ⟨-, rfl⟩ := State.push_eq_some hpush
      rfl
    · rfl
  case skp | sknp =>
    obtain ⟨c, rfl⟩ | rfl := exec_keySkip_cases (by simp) h
    · rw [State.skipIf_eq]
    · rfl
  case ldVxK => obtain ⟨k, -, rfl⟩ | ⟨-, rfl⟩ := exec_ldVxK_cases h <;> rfl
  case drw => obtain rfl | rfl := guarded_next_cases h <;> rfl
  case loadRegs x =>
    obtain rfl | rfl := guarded_next_cases h
    · rw [State.loadBlock_eq]
    · rfl
  all_goals cases h
  case seByte | sneByte | seReg | sneReg => rw [State.skipIf_eq]
  all_goals rfl

/-- No instruction changes the font parameters. -/
theorem exec_font {i : Instr} {s t : State} (h : exec i s = .next t) : t.font = s.font :=
  exec_field_same (f := .font) h (by cases i <;> simp [Instr.mayWriteFields])

/-- Every handler keeps Memory's form. -/
theorem exec_keeps_wf {i : Instr} {s t : State} (hm : Memory.wf s.font s.mem) (h : exec i s = .next t) :
    Memory.wf t.font t.mem := by
  cases i
  case ldBVx x => exact wf_of_guarded_setBytes (bs := decimalDigits (s.reg x)) hm h
  case storeRegs x =>
    rw [exec, execStoreRegs, ← blockBytes_length s x] at h
    exact wf_of_guarded_setBytes hm h
  all_goals
    rw [exec_font h, exec_mem_of_not_stored h (by simp) (by simp)]
    exact hm

/-! ### The invariant: the stack and PC -/

/-- Every outstanding return address is one that a CALL can have saved (R40, R112). -/
def ReturnsBounded (s : State) : Prop :=
  ∀ k : Fin 16, k.val < s.sp.val → 2 ≤ (s.stk[k]).toNat ∧ (s.stk[k]).toNat ≤ 4096

/-- A push of such an address keeps the bound. -/
theorem ReturnsBounded.push {s t : State} {w : Word} (hs : ReturnsBounded s) (hw : 2 ≤ w.toNat ∧ w.toNat ≤ 4096)
    (h : s.push w = some t) : ReturnsBounded t := by
  obtain ⟨hlt, rfl⟩ := State.push_eq_some h
  intro k hk
  by_cases hslot : k.val = s.sp.val
  · simpa [hslot] using hw
  · have hold : k.val < s.sp.val := by
      dsimp only at hk
      omega
    simpa [Vector.getElem_set, Ne.symm hslot] using hs k hold

/-- A pop keeps the bound, and gives an address that meets it. -/
theorem ReturnsBounded.pop {s t : State} {w : Word} (hs : ReturnsBounded s) (h : s.pop = some (w, t)) :
    ReturnsBounded t ∧ w.toNat ≤ 4096 := by
  obtain ⟨hpos, rfl, rfl⟩ := State.pop_eq_some h
  refine ⟨fun k hk => hs k ?_, (hs ⟨s.sp.val - 1, by omega⟩ (Nat.sub_lt hpos Nat.one_pos)).2⟩
  dsimp only at hk
  omega

/-- Every handler keeps the bound on return addresses, entered with the PC after a fetch. -/
theorem exec_keeps_returnsBounded {i : Instr} {s t : State} (hs : ReturnsBounded s)
    (hpc : 2 ≤ s.pc.toNat ∧ s.pc.toNat ≤ 4096) (h : exec i s = .next t) : ReturnsBounded t := by
  cases i
  case call =>
    obtain ⟨u, hpush, rfl⟩ | rfl := exec_call_cases h
    · exact (hs.push hpc hpush :)
    · exact hs
  case ret =>
    obtain ⟨w, u, hpop, rfl⟩ | rfl := exec_ret_cases h
    · exact ((hs.pop hpop).1 :)
    · exact hs
  all_goals
    have hstk : t.stk = s.stk := exec_field_same (f := .stk) h (by simp [Instr.mayWriteFields])
    have hsp : t.sp = s.sp := exec_field_same (f := .sp) h (by simp [Instr.mayWriteFields])
    rw [ReturnsBounded, hstk, hsp]
    exact hs

theorem State.skipIf_pc_le {s : State} (c : Bool) (hpc : s.pc.toNat ≤ 4096) : (s.skipIf c).pc.toNat ≤ 0x10FE := by
  rw [State.skipIf_pc]
  split <;> bv_omega

/-- No handler leaves PC above 0x10FE, entered with the PC after a fetch (R27). -/
theorem exec_pc_le {i : Instr} {s t : State} (hs : ReturnsBounded s) (hpc : 2 ≤ s.pc.toNat ∧ s.pc.toNat ≤ 4096)
    (h : exec i s = .next t) : t.pc.toNat ≤ 0x10FE := by
  obtain ⟨hlow, hhigh⟩ := hpc
  cases i
  case jp nnn =>
    cases h
    rw [State.setPc_pc, addrOf_toNat]
    omega
  case jpV0 nnn =>
    cases h
    rw [State.setPc_pc, indexedAddr_toNat]
    omega
  case call nnn =>
    obtain ⟨u, -, rfl⟩ | rfl := exec_call_cases h
    · rw [State.setPc_pc, addrOf_toNat]
      omega
    · exact hhigh.trans (by decide)
  case ret =>
    obtain ⟨w, u, hpop, rfl⟩ | rfl := exec_ret_cases h
    · exact (hs.pop hpop).2.trans (by decide)
    · exact hhigh.trans (by decide)
  case skp | sknp =>
    obtain ⟨c, rfl⟩ | rfl := exec_keySkip_cases (by simp) h
    · exact State.skipIf_pc_le c hhigh
    · exact hhigh.trans (by decide)
  case seByte | sneByte | seReg | sneReg =>
    cases h
    exact State.skipIf_pc_le _ hhigh
  case ldVxK =>
    obtain ⟨k, -, rfl⟩ | ⟨-, rfl⟩ := exec_ldVxK_cases h
    · exact hhigh.trans (by decide)
    · rw [State.rewind_pc]
      bv_omega
  all_goals
    rw [exec_pc_of_not_written h (by simp [Instr.mayWriteFields])]
    omega

/-! ### The invariant along a cycle, a reset and a host operation -/

/-- The end of the cycle touches nothing the invariant speaks of. -/
theorem Invariant.endCycle {s : State} (h : Invariant s) : Invariant s.endCycle := by
  unfold State.endCycle
  split <;> exact h

/-- Settles O21: a fetch fault only latches; a handler is entered with PC from 2 to 4096 and keeps each clause. -/
theorem stepKeepsTheInvariant : Obligations.StepKeepsTheInvariant := by
  intro s t hs ht
  obtain ⟨-, ⟨-, rfl⟩ | ⟨op, u, hfetch, hu, rfl⟩⟩ := step_next_cases ht
  · exact hs
  · obtain ⟨hfont, hmem, -, hstk⟩ := hs
    obtain ⟨hpc, -⟩ := State.fetch_eq_some.mp hfetch
    have hentry : 2 ≤ s.advance.pc.toNat ∧ s.advance.pc.toNat ≤ 4096 := by
      rw [State.advance_pc]
      bv_omega
    have hwf : Memory.wf s.advance.font s.advance.mem := hmem
    have hreturns : ReturnsBounded s.advance := hstk
    refine Invariant.endCycle ⟨?_, exec_keeps_wf hwf hu, exec_pc_le hreturns hentry hu,
      exec_keeps_returnsBounded hreturns hentry hu⟩
    rw [exec_font hu]
    exact hfont

theorem invariant_resetWith {p : FontParams} (hp : p.fits) : Invariant (State.resetWith p) :=
  ⟨hp, Memory.wf_nil, (by decide : (0x200#16).toNat ≤ 0x10FE), fun k hk => absurd hk (Nat.not_lt_zero k.val)⟩

theorem defaultFont_fits : defaultFont.fits := by decide

/-- Settles O20: Memory is empty and so is the stack. -/
theorem resetMeetsTheInvariant : Obligations.ResetMeetsTheInvariant :=
  ⟨invariant_resetWith defaultFont_fits, fun _ => invariant_resetWith⟩

/-- A loaded image keeps Memory's form: its last byte is inside Memory. -/
theorem Invariant.loadImage {s : State} (h : Invariant s) (bytes : List Byte) : Invariant (s.loadImage bytes) := by
  obtain ⟨hfont, hmem, hpc, hstk⟩ := h
  unfold State.loadImage
  split
  next hlen =>
    simp only [Config.maxImage] at hlen
    exact ⟨hfont, Memory.wf_writeBytes bytes s.mem _ (by simp only [Config.bootAddr, Config.memSize]; omega) hmem,
      hpc, hstk⟩
  next => exact ⟨hfont, hmem, hpc, hstk⟩

/-- Settles O22: the keys and the count of draws are no part of the invariant. -/
theorem hostOperationsKeepTheInvariant : Obligations.HostOperationsKeepTheInvariant :=
  fun _ hs => ⟨hs.loadImage, fun _ => hs, invariant_resetWith hs.1⟩

/-! ### Memory's form is canonical -/

/-- In canonical form the first cell is seen: it reads as no unlisted cell does. -/
theorem Memory.read_head {p : FontParams} {a : Nat} {v : Byte} {m : Memory} (hm : Memory.wf p ((a, v) :: m)) :
    Memory.read p ((a, v) :: m) a ≠ resetByte p a := by
  obtain ⟨-, -, hv, -⟩ := (Memory.wf_cons_iff _ _).mp hm
  simpa [Memory.read_cell] using hv

/-- In canonical form every address below the first cell reads as after reset. -/
theorem Memory.read_below_head {p : FontParams} {a b : Nat} {v : Byte} {m : Memory}
    (hm : Memory.wf p ((b, v) :: m)) (h : a < b) : Memory.read p ((b, v) :: m) a = resetByte p a := by
  obtain ⟨hlt, -⟩ := (Memory.wf_cons_iff _ _).mp hm
  exact Memory.read_of_lt _ _ (List.forall_mem_cons.mpr ⟨h, fun d hd => h.trans (hlt d hd)⟩)

/-- Settles O23: the lowest cell in which two canonical lists differ reads differently. -/
theorem equalReadsAreEqualMemories : Obligations.EqualReadsAreEqualMemories := by
  intro p m
  induction m with
  | nil =>
    rintro (_ | ⟨⟨b, w⟩, n⟩) - hn hread
    · rfl
    · exact absurd (hread b).symm (Memory.read_head hn)
  | cons c m ih =>
    obtain ⟨a, v⟩ := c
    rintro (_ | ⟨⟨b, w⟩, n⟩) hm hn hread
    · exact absurd (hread a) (Memory.read_head hm)
    · obtain hlt | rfl | hlt := Nat.lt_trichotomy a b
      · exact absurd ((hread a).trans (Memory.read_below_head hn hlt)) (Memory.read_head hm)
      · obtain ⟨hmlt, -, -, hm'⟩ := (Memory.wf_cons_iff _ _).mp hm
        obtain ⟨hnlt, -, -, hn'⟩ := (Memory.wf_cons_iff _ _).mp hn
        have hv : v = w := by simpa [Memory.read_cell] using hread a
        have htail : ∀ e, Memory.read p m e = Memory.read p n e := by
          intro e
          by_cases he : e = a
          · rw [he, Memory.read_of_lt m a hmlt, Memory.read_of_lt n a hnlt]
          · simpa [Memory.read_cell, he] using hread e
        rw [hv, ih n hm' hn' htail]
      · exact absurd ((hread b).symm.trans (Memory.read_below_head hm hlt)) (Memory.read_head hn)

end Sys2Proof.Machine

namespace Sys2Proof.Machine

/-! ### Timers (R95, R154, R155) -/

/-- What the handler leaves in DT: V[x] under `LD DT,Vx`, the old value under every other instruction. -/
theorem exec_dt {i : Instr} {s u : State} (h : exec i s = .next u) :
    u.dt.toNat = match i with | .ldDtVx x => (s.reg x).toNat | _ => s.dt.toNat := by
  cases i
  case ldDtVx =>
    cases h
    rfl
  all_goals exact congrArg BitVec.toNat (exec_field_same (f := .dt) h (by simp [Instr.mayWriteFields]))

/-- What the handler leaves in ST: V[x] under `LD ST,Vx`, the old value under every other instruction. -/
theorem exec_st {i : Instr} {s u : State} (h : exec i s = .next u) :
    u.st.toNat = match i with | .ldStVx x => (s.reg x).toNat | _ => s.st.toNat := by
  cases i
  case ldStVx =>
    cases h
    rfl
  all_goals exact congrArg BitVec.toNat (exec_field_same (f := .st) h (by simp [Instr.mayWriteFields]))

/-- Settles O11: the cycle ends with one tick of what the handler left. -/
theorem timersTickOncePerCycle : Obligations.TimersTickOncePerCycle := by
  intro s t i hi ht hclean
  obtain ⟨u, hu, -, rfl⟩ := hi.exec_of_clean_step ht hclean
  rw [State.tick_dt, State.tick_st, tickTimer_toNat, tickTimer_toNat, exec_dt hu, exec_st hu]
  cases i <;> exact ⟨rfl, rfl⟩

/-! ### What neither the stack nor ST decides (R28, R31) -/

/-- No block load depends on the stack or ST. -/
theorem State.loadBlock_with_stk_st (s : State) (x : Reg) (stk : Vector Word 16) (b : Byte) :
    State.loadBlock { s with stk := stk, st := b } x = { s.loadBlock x with stk := stk, st := b } := by
  have hv : (State.loadBlock { s with stk := stk, st := b } x).v = (s.loadBlock x).v := by
    ext k hk : 1
    exact (State.loadBlock_reg _ x ⟨k, hk⟩).trans (State.loadBlock_reg s x ⟨k, hk⟩).symm
  rw [State.loadBlock_eq, State.loadBlock_eq s, hv]

theorem handlerFault_with_stk_st (i : Instr) (s : State) (stk : Vector Word 16) (b : Byte) :
    handlerFault i { s with stk := stk, st := b } = handlerFault i s := by
  cases i <;> rfl

theorem State.skipIf_with_stk_st (s : State) (c : Bool) (stk : Vector Word 16) (b : Byte) :
    State.skipIf { s with stk := stk, st := b } c = { s.skipIf c with stk := stk, st := b } := by
  cases c <;> rfl

/-- A handler that neither moves the stack nor writes ST does the same whatever they hold, and leaves them. -/
theorem exec_with_stk_st {i : Instr} {s t : State} (hf : handlerFault i s = none) (h : exec i s = .next t)
    (hcall : ∀ nnn, i ≠ .call nnn) (hret : i ≠ .ret) (hst : ∀ x, i ≠ .ldStVx x) (stk : Vector Word 16) (b : Byte) :
    exec i { s with stk := stk, st := b } = .next { t with stk := stk, st := b } := by
  cases i
  case call nnn => exact absurd rfl (hcall nnn)
  case ret => exact absurd rfl hret
  case ldStVx x => exact absurd rfl (hst x)
  case skp x =>
    have hkey := not_of_guard_eq_none hf
    cases (exec_skp_of_key (k := ⟨(s.reg x).toNat, by omega⟩) rfl).symm.trans h
    rw [← State.skipIf_with_stk_st]
    exact exec_skp_of_key rfl
  case sknp x =>
    have hkey := not_of_guard_eq_none hf
    cases (exec_sknp_of_key (k := ⟨(s.reg x).toNat, by omega⟩) rfl).symm.trans h
    rw [← State.skipIf_with_stk_st]
    exact exec_sknp_of_key rfl
  case ldVxK =>
    obtain ⟨k, hk, rfl⟩ | ⟨hk, rfl⟩ := exec_ldVxK_cases h
    · exact exec_ldVxK_of_key hk
    · exact exec_ldVxK_of_none hk
  case drw =>
    have hrange := State.indexRange_of_guard_eq_none hf
    cases (exec_drw_of_range hrange).symm.trans h
    exact exec_drw_of_range hrange
  case ldBVx =>
    have hrange := range_of_guard_eq_none hf
    cases (exec_ldBVx_of_range hrange).symm.trans h
    exact exec_ldBVx_of_range hrange
  case storeRegs =>
    have hrange := range_of_guard_eq_none hf
    cases (exec_storeRegs_of_range hrange).symm.trans h
    exact exec_storeRegs_of_range hrange
  case loadRegs =>
    have hrange := range_of_guard_eq_none hf
    cases (exec_loadRegs_of_range hrange).symm.trans h
    rw [← State.loadBlock_with_stk_st]
    exact exec_loadRegs_of_range hrange
  case seByte | sneByte | seReg | sneReg =>
    cases h
    rw [← State.skipIf_with_stk_st]
    rfl
  all_goals
    cases h
    rfl

/-- Whatever ST holds, a handler does the same but for ST. -/
theorem exec_with_st {i : Instr} {s t : State} (hf : handlerFault i s = none) (h : exec i s = .next t) (b : Byte) :
    ∃ c, exec i { s with st := b } = .next { t with st := c } := by
  cases i
  case call =>
    have hsp := not_of_guard_eq_none hf
    have hlt : s.sp.val < 16 := by omega
    cases (exec_call_of_lt hlt).symm.trans h
    exact ⟨b, exec_call_of_lt (s := { s with st := b }) hlt⟩
  case ret =>
    have hpos : 0 < s.sp.val := Nat.pos_of_ne_zero (not_of_guard_eq_none hf)
    cases (exec_ret_of_pos hpos).symm.trans h
    exact ⟨b, exec_ret_of_pos (s := { s with st := b }) hpos⟩
  case ldStVx x =>
    cases h
    exact ⟨s.reg x, rfl⟩
  all_goals
    have hstk : t.stk = s.stk := exec_field_same (f := .stk) h (by simp [Instr.mayWriteFields])
    refine ⟨b, ?_⟩
    simpa only [← hstk] using exec_with_stk_st hf h (by simp) (by simp) (by simp) s.stk b

/-- Settles O25: the fetch and every handler's condition do not depend on ST, and no handler reads it. -/
theorem soundTimerInfluencesNothing : Obligations.SoundTimerInfluencesNothing := by
  intro s b hr
  obtain ⟨i, hi⟩ | ⟨hpc, hfault⟩ := hr.fetches_or_faults
  · have hi' : Fetches { s with st := b } i := hi
    cases hf : handlerFault i s with
    | some f =>
      have hf' : handlerFault i { s with st := b } = some f := (handlerFault_with_stk_st i s s.stk b).trans hf
      exact ⟨_, b, hi.step_of_handlerFault hf, hi'.step_of_handlerFault hf'⟩
    | none =>
      obtain ⟨u, hu, hclean, hstep⟩ := hi.step_of_handlerFault_none hf
      obtain ⟨c, hc⟩ := exec_with_st ((handlerFault_advance i s).trans hf) hu b
      exact ⟨u.tick, tickTimer c, hstep, hi'.step_of_exec hc hclean⟩
  · exact ⟨_, b, hfault, fetchOutsideMemoryFaults { s with st := b } hr hpc⟩

/-! ### Dead stack slots decide nothing (R28) -/

/-- Whatever the dead stack slots hold, a handler does the same but for them. -/
theorem exec_with_stk {i : Instr} {s t : State} (hf : handlerFault i s = none) (h : exec i s = .next t)
    {stk : Vector Word 16} (hlive : ∀ k : Fin 16, k.val < s.sp.val → stk[k] = s.stk[k]) :
    ∃ stk' : Vector Word 16, exec i { s with stk := stk } = .next { t with stk := stk' } ∧
      ∀ k : Fin 16, k.val < t.sp.val → stk'[k] = t.stk[k] := by
  cases i
  case call =>
    have hsp := not_of_guard_eq_none hf
    have hlt : s.sp.val < 16 := by omega
    cases (exec_call_of_lt hlt).symm.trans h
    refine ⟨_, exec_call_of_lt (s := { s with stk := stk }) hlt, fun k hk => ?_⟩
    by_cases hslot : s.sp.val = k.val
    · simp [hslot]
    · have hold : k.val < s.sp.val := by
        dsimp only at hk
        omega
      simpa [Vector.getElem_set, hslot] using hlive k hold
  case ret =>
    have hpos : 0 < s.sp.val := Nat.pos_of_ne_zero (not_of_guard_eq_none hf)
    have htop : stk[s.sp.val - 1] = s.stk[s.sp.val - 1] := hlive ⟨s.sp.val - 1, by omega⟩ (Nat.sub_lt hpos Nat.one_pos)
    cases (exec_ret_of_pos hpos).symm.trans h
    refine ⟨stk, (exec_ret_of_pos (s := { s with stk := stk }) hpos).trans (by rw [htop]), fun k hk => hlive k ?_⟩
    dsimp only at hk
    omega
  case ldStVx x =>
    cases h
    exact ⟨stk, rfl, hlive⟩
  all_goals
    have hstk : t.stk = s.stk := exec_field_same (f := .stk) h (by simp [Instr.mayWriteFields])
    have hsp : t.sp = s.sp := exec_field_same (f := .sp) h (by simp [Instr.mayWriteFields])
    have hst : t.st = s.st := exec_field_same (f := .st) h (by simp [Instr.mayWriteFields])
    refine ⟨stk, ?_, hstk ▸ hsp ▸ hlive⟩
    simpa only [← hst] using exec_with_stk_st hf h (by simp) (by simp) (by simp) stk s.st

/-- Settles O26: CALL overwrites a dead slot, RET reads a live one, and nothing else looks at the stack. -/
theorem deadStackSlotsAreNeverSeen : Obligations.DeadStackSlotsAreNeverSeen := by
  intro s t stk hlive ht
  obtain ⟨hr, -⟩ := step_next_cases ht
  obtain ⟨i, hi⟩ | ⟨hpc, hfault⟩ := State.running.fetches_or_faults hr
  · have hi' : Fetches { s with stk := stk } i := hi
    cases hf : handlerFault i s with
    | some f =>
      have hf' : handlerFault i { s with stk := stk } = some f := (handlerFault_with_stk_st i s stk s.st).trans hf
      cases (hi.step_of_handlerFault hf).symm.trans ht
      exact ⟨stk, hi'.step_of_handlerFault hf', hlive⟩
    | none =>
      obtain ⟨u, hu, hclean, hstep⟩ := hi.step_of_handlerFault_none hf
      cases hstep.symm.trans ht
      obtain ⟨stk', hu', hlive'⟩ := exec_with_stk ((handlerFault_advance i s).trans hf) hu hlive
      exact ⟨stk', hi'.step_of_exec hu' hclean, hlive'⟩
  · cases hfault.symm.trans ht
    exact ⟨stk, fetchOutsideMemoryFaults { s with stk := stk } hr hpc, hlive⟩

/-! ### A stopped program (R102, D22) -/

/-- Settles O27: the jump goes where PC already was, so the cycle is a tick. -/
theorem stoppedProgramStaysStopped : Obligations.StoppedProgramStaysStopped := by
  rintro s ⟨a, hpc, hi⟩
  obtain ⟨u, hu, -, hstep⟩ := hi.step_of_handlerFault_none rfl
  cases hu
  have hback : s.advance.setPc (addrOf a) = s := by
    rw [← hpc]
    rfl
  rw [hback] at hstep
  exact ⟨s.tick, hstep, ⟨a, hpc, hi⟩, rfl, tickTimer_toNat s.dt, tickTimer_toNat s.st⟩

/-! ### CALL and RET (R110, R112) -/

/-- Settles O31: the slot the CALL wrote is the one the RET reads. -/
theorem retReturnsToAfterTheCall : Obligations.RetReturnsToAfterTheCall := by
  intro nnn s t u hlt ht hstk hsp
  cases (exec_call_of_lt hlt).symm.trans ht
  have hpos : 0 < u.sp.val := by simp [hsp]
  refine ⟨_, exec_ret_of_pos hpos, ?_, ?_, frame_exec_ret_of_pos hpos⟩
  · simp [hstk, hsp]
  · simp [hsp]

end Sys2Proof.Machine

namespace Sys2Proof.Machine

/-! ### Unmapped words (R96) -/

/-- Settles O33: a word that selects no row is a NOP, whose handler answers the state it got. -/
theorem unmappedWordsDoNothing : Obligations.UnmappedWordsDoNothing := by
  refine ⟨fun _ _ => rfl, fun w s hnone hr hf => ?_⟩
  rw [step_of_fetch hr hf, decodeWord_of_selects_none hnone]
  exact congrArg Host.Outcome.next (State.endCycle_of_running hr)

/-! ### Control transfer (spec/41_control_flow.md) -/

/-- Settles O28: each jump is one write of PC, and neither target wraps. -/
theorem jumpsGoToTheirTarget : Obligations.JumpsGoToTheirTarget :=
  fun nnn s => ⟨⟨_, rfl, addrOf_toNat nnn, frame_setPc s _⟩, ⟨_, rfl, indexedAddr_toNat s nnn, frame_setPc s _⟩⟩

/-- Settles O29: the push writes the slot at SP only. -/
theorem callPushesTheReturnAddress : Obligations.CallPushesTheReturnAddress := by
  intro nnn s hlt
  refine ⟨_, exec_call_of_lt hlt, by simp, fun k hk => ?_, rfl, addrOf_toNat nnn, frame_exec_call_of_lt hlt⟩
  simp [Ne.symm hk]

/-- Settles O30: the pop reads the slot below SP and writes SP only. -/
theorem retPopsTheReturnAddress : Obligations.RetPopsTheReturnAddress :=
  fun _ hpos => ⟨_, exec_ret_of_pos hpos, Vector.getElem?_eq_getElem _, Nat.sub_add_cancel hpos,
    frame_exec_ret_of_pos hpos⟩

/-- Settles O32: each compare-skip is a skip on its comparison. -/
theorem compareSkipsMoveOverTwoBytes : Obligations.CompareSkipsMoveOverTwoBytes := by
  intro x y kk s
  refine ⟨⟨_, rfl, ?_, frame_skipIf s _⟩, ⟨_, rfl, ?_, frame_skipIf s _⟩, ⟨_, rfl, ?_, frame_skipIf s _⟩,
    ⟨_, rfl, ?_, frame_skipIf s _⟩⟩
  all_goals simp [State.skipIf_pc]

/-- Settles O46: a key code of at most 15 names a key, and each key-skip is a skip on that key. -/
theorem keySkipsTestTheKey : Obligations.KeySkipsTestTheKey := by
  intro x k s hk
  refine ⟨⟨_, exec_skp_of_key hk, s.skipIf_pc _, frame_skipIf s _⟩, ⟨_, exec_sknp_of_key hk, ?_, frame_skipIf s _⟩⟩
  rw [State.skipIf_pc]
  cases s.keyDown k <;> rfl

/-! ### Loads, arithmetic, logic, shifts, index, random (spec/42_load_alu.md) -/

/-- Settles O35: the handler writes the sum to one register. -/
theorem addByteWrapsWithoutFlag : Obligations.AddByteWrapsWithoutFlag := by
  refine fun x kk s => ⟨_, rfl, ?_, frame_setReg s x _⟩
  rw [State.reg_setReg_self, sumByte_toNat]

/-- A handler that is one register write. -/
theorem exists_next_setReg (s : State) (x : Reg) (b : Byte) :
    ∃ t, (.next (s.setReg x b) : Result) = .next t ∧ t.reg x = b ∧ Frame s t [x] [] noBytes :=
  ⟨_, rfl, s.reg_setReg_self x b, frame_setReg s x b⟩

/-- Settles O36: each handler writes its result to one register. -/
theorem copyAndLogicWriteOnlyTheDestination : Obligations.CopyAndLogicWriteOnlyTheDestination :=
  fun x y s => ⟨exists_next_setReg s x (s.reg y), exists_next_setReg s x (s.reg x ||| s.reg y),
    exists_next_setReg s x (s.reg x &&& s.reg y), exists_next_setReg s x (s.reg x ^^^ s.reg y)⟩

theorem greaterFlag_eq (a b : Byte) : greaterFlag a b = if b.toNat < a.toNat then 1 else 0 := by
  rw [greaterFlag, flagByte_eq]
  simp only [decide_eq_true_eq]

/-- What a subtract leaves, for either order of its operands. -/
theorem writeFlagThenResult_diff (s : State) (x : Reg) (a b : Byte) :
    ((s.writeFlagThenResult x (greaterFlag a b) (diffByte a b)).reg x).toNat = (256 + a.toNat - b.toNat) % 256 ∧
    (x ≠ VF → (s.writeFlagThenResult x (greaterFlag a b) (diffByte a b)).reg VF =
      if b.toNat < a.toNat then 1 else 0) ∧
    Frame s (s.writeFlagThenResult x (greaterFlag a b) (diffByte a b)) [x, VF] [] noBytes := by
  refine ⟨?_, fun hx => ?_, frame_writeFlagThenResult s x _ _⟩
  · rw [State.writeFlagThenResult_reg_self, diffByte_toNat]
  · rw [State.writeFlagThenResult_reg_VF s _ _ hx, greaterFlag_eq]

/-- Settles O38: SUB and SUBN are the same writes of the operands in either order. -/
theorem subtractsSetTheStrictFlag : Obligations.SubtractsSetTheStrictFlag :=
  fun x y s => ⟨⟨_, rfl, writeFlagThenResult_diff s x (s.reg x) (s.reg y)⟩,
    ⟨_, rfl, writeFlagThenResult_diff s x (s.reg y) (s.reg x)⟩⟩

theorem lowBitFlag_toNat (a : Byte) : (lowBitFlag a).toNat = a.toNat % 2 := by
  rw [lowBitFlag, flagByte_eq]
  obtain h | h := Nat.mod_two_eq_zero_or_one a.toNat <;> simp [h]

theorem highBitFlag_toNat (a : Byte) : (highBitFlag a).toNat = a.toNat / 128 := by
  have := a.isLt
  have hbit : a.toNat / 128 = 0 ∨ a.toNat / 128 = 1 := by omega
  rw [highBitFlag, flagByte_eq]
  obtain h | h := hbit <;> simp [h]

/-- The flag is written last, so it is what VF holds, also when x is VF (R126, C2). -/
theorem State.writeResultThenFlag_reg_VF (s : State) (x : Reg) (f r : Byte) :
    (s.writeResultThenFlag x f r).reg VF = f := by
  rw [State.reg_writeResultThenFlag, if_pos rfl]

/-- The result survives in any register but VF (R126). -/
theorem State.writeResultThenFlag_reg_self (s : State) {x : Reg} (f r : Byte) (hx : x ≠ VF) :
    (s.writeResultThenFlag x f r).reg x = r := by
  rw [State.reg_writeResultThenFlag, if_neg hx, if_pos rfl]

/-- Settles O39: the result is written first, the flag last. -/
theorem shiftsMoveOneBitIntoTheFlag : Obligations.ShiftsMoveOneBitIntoTheFlag := by
  refine fun x y s => ⟨⟨_, rfl, ?_, fun hx => ?_, frame_writeResultThenFlag s x _ _⟩,
    ⟨_, rfl, ?_, fun hx => ?_, frame_writeResultThenFlag s x _ _⟩⟩
  · rw [State.writeResultThenFlag_reg_VF, lowBitFlag_toNat]
  · rw [State.writeResultThenFlag_reg_self s _ _ hx, shrByte_toNat]
  · rw [State.writeResultThenFlag_reg_VF, highBitFlag_toNat]
  · rw [State.writeResultThenFlag_reg_self s _ _ hx, shlByte_toNat]

/-- Settles O40: each handler is one write of I. -/
theorem indexWritesChangeOnlyI : Obligations.IndexWritesChangeOnlyI :=
  fun x nnn s => ⟨⟨_, rfl, addrOf_toNat nnn, frame_setI s _⟩, ⟨_, rfl, indexPlus_toNat s x, frame_setI s _⟩,
    ⟨_, rfl, fun hp => glyphAddress_toNat_of_fits s.font hp (s.reg x), glyphAddress_toNat s.font (s.reg x),
      frame_setI s _⟩⟩

/-- Settles O41: the byte is that of the draw count, which goes up by one. -/
theorem randomByteIsMaskedAndConsumed : Obligations.RandomByteIsMaskedAndConsumed := by
  intro x kk s
  have hreg : ((s.setReg x (s.randomByte &&& kk)).countDraw).reg x = Config.randomByte s.draws &&& kk :=
    s.reg_setReg_self x _
  refine ⟨_, rfl, hreg, fun hkk => ?_, rfl, frame_setReg_countDraw s x _⟩
  rw [hreg, hkk]
  exact BitVec.and_zero

/-! ### Keypad and timers (spec/44_keypad_timers.md) -/

/-- Settles O47: the handler asks for the lowest pressed key. -/
theorem keyWaitLoadsTheLowestKeyOrRewinds : Obligations.KeyWaitLoadsTheLowestKeyOrRewinds := by
  refine fun x s => ⟨fun k hk hlow => ?_, fun hnone => ?_⟩
  · refine ⟨_, exec_ldVxK_of_key (State.firstKey_eq_some.mpr ⟨hk, hlow⟩), ?_, frame_setReg s x _⟩
    rw [State.reg_setReg_self, codeOfKey_toNat]
  · exact ⟨_, exec_ldVxK_of_none (State.firstKey_eq_none.mpr hnone), rfl, frame_rewind s⟩

/-- Settles O48: each handler is one write. -/
theorem timerMovesCopyTheByte : Obligations.TimerMovesCopyTheByte :=
  fun x s => ⟨⟨_, rfl, s.reg_setReg_self x _, frame_setReg s x _⟩, ⟨_, rfl, rfl, frame_setDt s _⟩,
    ⟨_, rfl, rfl, frame_setSt s _⟩⟩

/-! ### Block transfers (spec/45_memory_transfer.md) -/

/-- The byte the block store puts at offset r is V[r]. -/
theorem blockBytes_getElem (s : State) {x r : Reg} (h : r.val < (blockBytes s x).length) :
    (blockBytes s x)[r.val] = s.reg r := by
  simp only [blockBytes, List.getElem_map]
  exact congrArg s.reg (Fin.ext (blockRegs_getElem x r.val (by simpa [blockBytes] using h)))

/-- After a block store the byte at I + r is V[r], for every r up to x (R162). -/
theorem State.byteAt_setBytes_blockBytes {s : State} (hm : Memory.wf s.font s.mem) {x r : Reg}
    (hi : s.i.toNat + (x.val + 1) ≤ Config.memSize) (hr : r ≤ x) :
    (s.setBytes s.i.toNat (blockBytes s x)).byteAt (s.i.toNat + r.val) = s.reg r := by
  have hlen := blockBytes_length s x
  have hr' : r.val < (blockBytes s x).length := by
    rw [hlen]
    exact Nat.lt_succ_of_le hr
  rw [State.byteAt_setBytes_add hm (hlen ▸ hi) hr', blockBytes_getElem]

/-- The bytes of a block that ends at 4095 or below exist. -/
theorem range_of_block_le {a : Nat} {x : Reg} (h : a + x.val ≤ 4095) : a + (x.val + 1) ≤ Config.memSize :=
  Nat.succ_le_succ h

/-- Settles O50: the handler writes the block's bytes at I. -/
theorem blockStoreWritesRegistersUpToX : Obligations.BlockStoreWritesRegistersUpToX :=
  fun x s hm hi => ⟨_, exec_storeRegs_of_range (range_of_block_le hi),
    fun _ hr => State.byteAt_setBytes_blockBytes hm (range_of_block_le hi) hr, frame_setBytes_blockBytes s x⟩

/-- Settles O51: the handler sets the block's registers from the bytes at I. -/
theorem blockLoadReadsRegistersUpToX : Obligations.BlockLoadReadsRegistersUpToX := by
  refine fun x s hi => ⟨_, exec_loadRegs_of_range (range_of_block_le hi), fun r hr => ?_, fun r hr => ?_,
    frame_loadBlock s x⟩
  · rw [State.loadBlock_reg, if_pos hr]
  · rw [State.loadBlock_reg, if_neg (not_le_of_gt hr)]

/-- Settles O52: the load reads, at I + r, the byte that the store put there. -/
theorem blockStoreThenLoadRoundTrips : Obligations.BlockStoreThenLoadRoundTrips := by
  intro x s t v hm hi ht
  have hrange := range_of_block_le hi
  cases (exec_storeRegs_of_range hrange).symm.trans ht
  refine ⟨_, exec_loadRegs_of_range hrange, fun r hr => ?_⟩
  rw [State.loadBlock_reg, if_pos hr]
  exact State.byteAt_setBytes_blockBytes hm hrange hr

/-! ### Reset and the host (spec/70_reset_and_hazards.md, spec/20_memory.md section 4) -/

/-- Settles O56: the write replaces the keys and no other field. -/
theorem keypadWriteSetsEveryKey : Obligations.KeypadWriteSetsEveryKey :=
  fun _ _ => ⟨fun _ => rfl, frame_of_fields rfl rfl rfl fun f hf => by
    cases f <;> first | rfl | exact fun _ _ => rfl | simp at hf⟩

/-- Settles O54: an image that fits is one write of its bytes; any other is one raise. -/
theorem loadImageCopiesOrRefusesWhole : Obligations.LoadImageCopiesOrRefusesWhole := by
  refine fun s bytes => ⟨fun hlong => if_neg (Nat.not_le.mpr hlong), fun hlen => ?_⟩
  have hload : s.loadImage bytes = s.setBytes 0x200 bytes := if_pos hlen
  rw [hload]
  exact ⟨frame_setBytes s _ _, fun hm k hk => State.byteAt_setBytes_add hm (by simp only [Config.memSize]; omega) hk⟩

/-- A cleared display has every cell off. -/
theorem Framebuffer.clear_getElem (py : Fin 32) (px : Fin 64) : Framebuffer.clear[py][px] = false := by
  simp [Framebuffer.clear]

/-- The state right after reset has R39's values, for all font parameters. -/
theorem hasResetValues_resetWith (p : FontParams) : HasResetValues (State.resetWith p) := by
  refine ⟨fun r => ?_, rfl, rfl, rfl, fun k => ?_, rfl, rfl, Framebuffer.clear_getElem, fun k => ?_, rfl, fun hp =>
    ⟨fun k => getElem_data_eq_resetByte hp k.val k.isLt, fun a ha => resetByte_outside hp a ha⟩⟩
  · simp [State.reg, State.resetWith]
  · simp [State.resetWith]
  · simp [State.keyDown, State.resetWith]

/-- Settles O55: the host's reset is the reset of the machine with the state's own parameters, but for the draws. -/
theorem resetLeavesTheListedState : Obligations.ResetLeavesTheListedState :=
  ⟨⟨hasResetValues_resetWith defaultFont, defaultFont_fits, rfl⟩, fun p => ⟨hasResetValues_resetWith p, rfl⟩,
    fun s => ⟨hasResetValues_resetWith s.font, rfl, rfl⟩⟩

end Sys2Proof.Machine

namespace Sys2Proof.Machine

/-! ### The display (spec/43_display.md) -/

/-- Settles O42: the handler replaces the display by the cleared one. -/
theorem clsTurnsEveryCellOff : Obligations.ClsTurnsEveryCellOff :=
  fun s => ⟨_, rfl, Framebuffer.clear_getElem, frame_setFb s _⟩

/-- Rows of one length, written one after another, are read by row and column. -/
theorem getElem?_flatMap_of_length {α β : Type} {f : α → List β} {width : Nat} (hf : ∀ a, (f a).length = width)
    (l : List α) (row : Nat) (hrow : row < l.length) (col : Nat) (hcol : col < width) :
    (l.flatMap f)[row * width + col]? = (f l[row])[col]? := by
  induction l generalizing row with
  | nil => cases hrow
  | cons a l ih =>
    rw [List.flatMap_cons]
    cases row with
    | zero => rw [List.getElem?_append_left (by rw [hf]; omega), Nat.zero_mul, Nat.zero_add, List.getElem_cons_zero]
    | succ row =>
      have hoff : (row + 1) * width + col = row * width + col + width := by ring
      rw [hoff, List.getElem?_append_right (by rw [hf]; omega), hf, Nat.add_sub_cancel,
        ih row (Nat.lt_of_succ_lt_succ hrow), List.getElem_cons_succ]

/-- Settles O45: the host reads 32 rows of 64 cells, one after another. -/
theorem displayIsReadRowMajor : Obligations.DisplayIsReadRowMajor := by
  refine fun s => ⟨by simp [State.display], fun py px => ?_⟩
  rw [State.display, getElem?_flatMap_of_length (width := 64) (by simp) _ _ (by simp) _ px.isLt]
  simp

/-! ### What a draw does to the display and the collision note (R143, R145) -/

/-- Canvas d is canvas c with the cells that `ink` covers flipped, and a collision noted where one of them was on. -/
def Canvas.Inked (c d : Canvas) (ink : Fin 32 → Fin 64 → Bool) : Prop :=
  (∀ py px, d.fb[py][px] = Bool.xor (c.fb[py][px]) (ink py px)) ∧
  (d.hit = true ↔ c.hit = true ∨ ∃ py px, c.fb[py][px] = true ∧ ink py px = true)

/-- Drawing nothing. -/
theorem Canvas.Inked.of_no_ink (c : Canvas) {ink : Fin 32 → Fin 64 → Bool} (h : ∀ py px, ink py px = false) :
    c.Inked c ink := by
  simp [Canvas.Inked, h]

/-- Two drawings that share no cell make one drawing of both. -/
theorem Canvas.Inked.trans {c d e : Canvas} {ink ink' both : Fin 32 → Fin 64 → Bool} (h : c.Inked d ink)
    (h' : d.Inked e ink') (hboth : ∀ py px, both py px = (ink py px || ink' py px))
    (hdisjoint : ∀ py px, ink py px = true → ink' py px = false) : c.Inked e both := by
  obtain ⟨hcell, hhit⟩ := h
  obtain ⟨hcell', hhit'⟩ := h'
  have hor (py : Fin 32) (px : Fin 64) : Bool.xor (ink py px) (ink' py px) = both py px := by
    have := hdisjoint py px
    rw [hboth]
    cases hi : ink py px <;> simp_all
  have hsecond (py : Fin 32) (px : Fin 64) (hink : ink' py px = true) : d.fb[py][px] = c.fb[py][px] := by
    have := hdisjoint py px
    rw [hcell]
    cases hi : ink py px <;> simp_all
  refine ⟨fun py px => by rw [hcell', hcell, Bool.xor_assoc, hor], ?_⟩
  rw [hhit', hhit, or_assoc]
  refine or_congr_right ⟨?_, ?_⟩
  · rintro (⟨py, px, hon, hink⟩ | ⟨py, px, hon, hink⟩)
    · exact ⟨py, px, hon, by simp [hboth, hink]⟩
    · exact ⟨py, px, hsecond py px hink ▸ hon, by simp [hboth, hink]⟩
  · rintro ⟨py, px, hon, hink⟩
    rw [hboth, Bool.or_eq_true] at hink
    obtain hink | hink := hink
    · exact .inl ⟨py, px, hon, hink⟩
    · exact .inr ⟨py, px, (hsecond py px hink).trans hon, hink⟩

/-- The cell that column `col` of a sprite row covers, if the sprite bit there is 1. -/
def pixelInk (xPos yPos row : Nat) (b : Byte) (col : Nat) (py : Fin 32) (px : Fin 64) : Bool :=
  b.getLsbD (7 - col) && decide (py.val = yPos + row ∧ px.val = xPos + col)

theorem drawPixel_inked (xPos yPos row : Nat) (b : Byte) (c : Canvas) (col : Nat) :
    c.Inked (drawPixel xPos yPos row b c col) (pixelInk xPos yPos row b col) := by
  refine ⟨drawPixel_cell xPos yPos row b c col, (drawPixel_hit xPos yPos row b c col).trans (or_congr_right ?_)⟩
  simp only [pixelInk, Bool.and_eq_true, decide_eq_true_eq]
  constructor
  · rintro ⟨hbit, py, px, hy, hx, hon⟩
    exact ⟨py, px, hon, hbit, hy, hx⟩
  · rintro ⟨py, px, hon, hbit, hy, hx⟩
    exact ⟨hbit, py, px, hy, hx, hon⟩

/-- The cells that the first `cols` columns of a sprite row cover with a 1 bit. -/
def rowInk (xPos yPos row cols : Nat) (b : Byte) (py : Fin 32) (px : Fin 64) : Bool :=
  decide (xPos ≤ px.val ∧ px.val < xPos + cols ∧ py.val = yPos + row) && b.getLsbD (7 - (px.val - xPos))

theorem rowInk_succ (xPos yPos row cols : Nat) (b : Byte) (py : Fin 32) (px : Fin 64) :
    rowInk xPos yPos row (cols + 1) b py px =
      (rowInk xPos yPos row cols b py px || pixelInk xPos yPos row b cols py px) := by
  by_cases hlast : px.val = xPos + cols
  · simp [rowInk, pixelInk, hlast, Bool.and_comm]
  · have hcols : px.val < xPos + (cols + 1) ↔ px.val < xPos + cols := by omega
    simp [rowInk, pixelInk, hlast, hcols]

/-- The columns of one sprite row are different cells. -/
theorem pixelInk_of_rowInk {xPos yPos row cols : Nat} {b : Byte} {py : Fin 32} {px : Fin 64}
    (h : rowInk xPos yPos row cols b py px = true) : pixelInk xPos yPos row b cols py px = false := by
  simp only [rowInk, pixelInk, Bool.and_eq_true, decide_eq_true_eq, Bool.and_eq_false_imp,
    decide_eq_false_iff_not] at h ⊢
  omega

theorem drawColumns_inked (xPos yPos row : Nat) (b : Byte) (c : Canvas) (cols : Nat) :
    c.Inked ((List.range cols).foldl (drawPixel xPos yPos row b) c) (rowInk xPos yPos row cols b) := by
  induction cols with
  | zero =>
    refine .of_no_ink c fun py px => ?_
    simp only [rowInk, Bool.and_eq_false_imp, decide_eq_true_eq]
    omega
  | succ cols ih =>
    rw [List.range_succ, List.foldl_concat]
    exact ih.trans (drawPixel_inked ..) (rowInk_succ _ _ _ _ _) fun py px => pixelInk_of_rowInk

theorem drawRow_inked (xPos yPos row : Nat) (b : Byte) (c : Canvas) :
    c.Inked (drawRow xPos yPos row b c) (rowInk xPos yPos row 8 b) :=
  drawColumns_inked xPos yPos row b c 8

theorem spriteBit_succ (s : State) (xPos yPos n : Nat) (py : Fin 32) (px : Fin 64) :
    spriteBit s xPos yPos (n + 1) py px =
      (spriteBit s xPos yPos n py px || rowInk xPos yPos n 8 (s.byteAt (s.i.toNat + n)) py px) := by
  by_cases hlast : py.val = yPos + n
  · simp [spriteBit, rowInk, hlast]
  · have hrows : py.val < yPos + (n + 1) ↔ py.val < yPos + n := by omega
    simp [spriteBit, rowInk, hlast, hrows]

/-- The rows of a sprite are different cells. -/
theorem rowInk_of_spriteBit {s : State} {xPos yPos n : Nat} {b : Byte} {py : Fin 32} {px : Fin 64}
    (h : spriteBit s xPos yPos n py px = true) : rowInk xPos yPos n 8 b py px = false := by
  simp only [spriteBit, rowInk, Bool.and_eq_true, decide_eq_true_eq, Bool.and_eq_false_imp] at h ⊢
  omega

/-- The loop of R143 draws the sprite that R145 describes. -/
theorem drawSprite_inked (s : State) (xPos yPos n : Nat) (c : Canvas) :
    c.Inked (drawSprite s xPos yPos n c) (spriteBit s xPos yPos n) := by
  induction n with
  | zero =>
    refine .of_no_ink c fun py px => ?_
    simp only [spriteBit, Bool.and_eq_false_imp, decide_eq_true_eq]
    omega
  | succ n ih =>
    rw [drawSprite, List.range_succ, List.foldl_concat]
    exact ih.trans (drawRow_inked ..) (spriteBit_succ s xPos yPos n) fun py px => rowInk_of_spriteBit

/-- The bytes of a sprite that has none, or ends at 4095 or below, exist. -/
theorem State.indexRange_of_sprite {s : State} {n : Nat} (h : n = 0 ∨ s.i.toNat + n - 1 ≤ 4095) :
    s.indexRange n = true := by
  refine (rangeExists_iff _ _).mpr ?_
  simp only [Config.memSize]
  omega

theorem flagByte_eq_one_iff (c : Bool) : flagByte c = 1 ↔ c = true := by cases c <;> decide

theorem flagByte_eq_zero_iff (c : Bool) : flagByte c = 0 ↔ c = false := by cases c <;> decide

/-- What `DRW` leaves where the sprite's bytes exist: the display inked by the sprite, the collision note in VF, and all
else as it was. -/
theorem exec_drw_inked {x y : Reg} {n : Fin 16} {s : State} (hrange : n.val = 0 ∨ s.i.toNat + n.val - 1 ≤ 4095) :
    ∃ t hit, exec (.drw x y n) s = .next t ∧ t.reg VF = flagByte hit ∧ Frame s t [VF] [.fb] noBytes ∧
      Canvas.Inked ⟨s.fb, false⟩ ⟨t.fb, hit⟩ (spriteBit s ((s.reg x).toNat % 64) ((s.reg y).toNat % 32) n.val) :=
  ⟨_, _, exec_drw_of_range (State.indexRange_of_sprite hrange), State.reg_setReg_self .., frame_setFb_setReg s _ _ _,
    drawSprite_inked s _ _ _ _⟩

/-- The collision note of a drawing that began with none. -/
theorem Canvas.Inked.hit_iff {fb : Framebuffer} {d : Canvas} {ink : Fin 32 → Fin 64 → Bool}
    (h : Canvas.Inked ⟨fb, false⟩ d ink) : d.hit = true ↔ ∃ py px, fb[py][px] = true ∧ ink py px = true := by
  simpa using h.2

/-- Settles O43: the drawn canvas is the old display with the sprite's cells flipped. -/
theorem drawXorsTheSpriteAndReportsCollision : Obligations.DrawXorsTheSpriteAndReportsCollision := by
  intro x y n s hrange
  obtain ⟨t, hit, ht, hVF, hframe, hinked⟩ := exec_drw_inked (x := x) (y := y) hrange
  refine ⟨t, ht, hinked.1, fun hcover => ?_, fun hcover => ?_, hframe⟩
  · rw [hVF, flagByte_eq_one_iff]
    exact hinked.hit_iff.mpr hcover
  · rw [hVF, flagByte_eq_zero_iff, ← Bool.not_eq_true]
    exact mt hinked.hit_iff.mp hcover

/-- A draw leaves the sprite as it was: no byte and not I. -/
theorem spriteBit_of_frame {s t : State} (h : Frame s t [VF] [.fb] noBytes) (xPos yPos n : Nat) :
    spriteBit t xPos yPos n = spriteBit s xPos yPos n := by
  obtain ⟨-, hfields, hbytes⟩ := h
  have hi : t.i = s.i := hfields .i (by simp)
  funext py px
  rw [spriteBit, spriteBit, hi, hbytes _ id]

/-- Settles O44: the second draw covers the same cells, whose first flip it undoes. -/
theorem drawingTwiceRestoresTheDisplay : Obligations.DrawingTwiceRestoresTheDisplay := by
  intro x y n s t u hx hy hrange ht hu
  obtain ⟨t', hit, ht', -, hframe, hfirst, -⟩ := exec_drw_inked (x := x) (y := y) hrange
  cases ht'.symm.trans ht
  obtain ⟨hregs, hfields, -⟩ := id hframe
  have hi : t.i = s.i := hfields .i (by simp)
  rw [← hi] at hrange
  obtain ⟨u', hit', hu', hVF, -, hsecond⟩ := exec_drw_inked (x := x) (y := y) hrange
  cases hu'.symm.trans hu
  rw [hregs x (by simpa using hx), hregs y (by simpa using hy), spriteBit_of_frame hframe] at hsecond
  generalize spriteBit s ((s.reg x).toNat % 64) ((s.reg y).toNat % 32) n.val = ink at hfirst hsecond ⊢
  refine ⟨fun py px => ?_, ?_⟩
  · calc u.cell py px
        _ = Bool.xor (t.cell py px) (ink py px) := hsecond.1 py px
        _ = Bool.xor (Bool.xor (s.cell py px) (ink py px)) (ink py px) := by rw [State.cell, hfirst, State.cell]
        _ = s.cell py px := by simp
  · rw [hVF, flagByte_eq_one_iff, hsecond.hit_iff]
    refine exists_congr fun py => exists_congr fun px => and_congr_left fun hink => ?_
    rw [hfirst, hink, Bool.xor_true, Bool.not_eq_true']
    rfl

end Sys2Proof.Machine
